-- ==== Sys2Proof/Word.lean ====
section
/-!
DEFINITION. The bit-vector types of the CORE block (spec/00_scope.md R4, R7) and the plainest arithmetic on them.
Every quantity is unsigned; nothing on this hardware is sign-extended (R7).
-/

namespace Sys2Proof

/-- One byte: a V register, a timer, a memory cell (R4: `V_WIDTH`, `TIMER_WIDTH`, byte size). -/
abbrev Byte := BitVec 8

/-- One 16-bit word: an instruction word, `pc`, `I`, a return address (R4). -/
abbrev Word := BitVec 16

/-- The 12-bit address operand `nnn` (R4 `ADDR_OPERAND_WIDTH`, R64). -/
abbrev Addr12 := BitVec 12

/-- The 4-bit sprite height `n` (R71). -/
abbrev Nibble := BitVec 4

/-- The number of a V register, 0 to 15: an `x` or `y` field (R20, R71). -/
abbrev RegIdx := Fin 16

/-- The number of a key, 0 to 15 (R28). -/
abbrev KeyIdx := Fin 16

/-- `VF`, the register that doubles as the flag (R21). -/
abbrev flagReg : RegIdx := 15

end Sys2Proof
end

