-- ==== Sys2Proof/Machine/Flags.lean ====
section
/-!
DEFINITION. Every arithmetic result and flag value of spec/42_arith_logic.md (R142, R136 to R140). All values are
unsigned bytes; results wrap modulo 256, flags are computed from the unreduced values.
-/

namespace Sys2Proof.Machine

/-- A flag as VF holds it: 0 or 1 and never any other value (R21). -/
def flagByte (b : Bool) : Byte := if b then 1 else 0

/-- `(a + b) mod 256` (R131, R136). -/
def addWrap (a b : Byte) : Byte := a + b

/-- `(a - b) mod 256` (R137, R138). -/
def subWrap (a b : Byte) : Byte := a - b

/-- The carry of an addition: the unreduced sum exceeds 255 (R136). -/
def carry (a b : Byte) : Bool := decide (255 < a.toNat + b.toNat)

/-- No borrow in `a - b`: `a ≥ b` before the subtraction (R137). -/
def noBorrow (a b : Byte) : Bool := decide (b.toNat ≤ a.toNat)

/-- Logical shift right by one: bit 7 becomes 0 (R139). -/
def shiftRight1 (a : Byte) : Byte := a >>> 1

/-- The bit a right shift moves out: old bit 0 (R139). -/
def bitOutRight (a : Byte) : Bool := a.getLsbD 0

/-- Shift left by one: `(a * 2) mod 256` (R140). -/
def shiftLeft1 (a : Byte) : Byte := a <<< 1

/-- The bit a left shift moves out: old bit 7 (R140). -/
def bitOutLeft (a : Byte) : Bool := a.getLsbD 7

/-- The index sum of `ADD I,Vx`: modulo 65536, no flag (R151). -/
def indexSum (i : Word) (b : Byte) : Word := i + b.setWidth 16

end Sys2Proof.Machine
end

