-- ==== Sys2Proof/Syntax.lean ====
section
/-!
DEFINITION. The instruction set: the 31 rows of spec/30_encoding.md R75 (spec/opcode_table.json), one constructor a row.
Register operands are register numbers, immediates are the instruction's own bits (R73).
-/

namespace Sys2Proof

/-- One instruction of CORE, in the order of R75. `SHR` and `SHL` keep the `y` field they ignore and `NOP0` its `nnn`,
so that encoding loses no bit (R79, R82). -/
inductive Instr where
  /-- `CLS` (00E0): clear the screen (R160). -/
  | cls
  /-- `RET` (00EE): return (R110). -/
  | ret
  /-- `NOP0` (0nnn, other than 00E0 and 00EE): the null action (R95). -/
  | nop0 (nnn : Addr12)
  /-- `JP nnn` (1nnn) (R111). -/
  | jp (nnn : Addr12)
  /-- `CALL nnn` (2nnn) (R112). -/
  | call (nnn : Addr12)
  /-- `SE Vx,kk` (3xkk) (R113). -/
  | seImm (x : RegIdx) (kk : Byte)
  /-- `SNE Vx,kk` (4xkk) (R114). -/
  | sneImm (x : RegIdx) (kk : Byte)
  /-- `SE Vx,Vy` (5xy0) (R115). -/
  | seReg (x y : RegIdx)
  /-- `LD Vx,kk` (6xkk) (R130). -/
  | ldImm (x : RegIdx) (kk : Byte)
  /-- `ADD Vx,kk` (7xkk) (R131). -/
  | addImm (x : RegIdx) (kk : Byte)
  /-- `LD Vx,Vy` (8xy0) (R132). -/
  | ldReg (x y : RegIdx)
  /-- `OR Vx,Vy` (8xy1) (R133). -/
  | orReg (x y : RegIdx)
  /-- `AND Vx,Vy` (8xy2) (R134). -/
  | andReg (x y : RegIdx)
  /-- `XOR Vx,Vy` (8xy3) (R135). -/
  | xorReg (x y : RegIdx)
  /-- `ADD Vx,Vy` (8xy4) (R136). -/
  | addReg (x y : RegIdx)
  /-- `SUB Vx,Vy` (8xy5) (R137). -/
  | subReg (x y : RegIdx)
  /-- `SHR Vx` (8xy6, any y) (R139). -/
  | shr (x y : RegIdx)
  /-- `SUBN Vx,Vy` (8xy7) (R138). -/
  | subnReg (x y : RegIdx)
  /-- `SHL Vx` (8xyE, any y) (R140). -/
  | shl (x y : RegIdx)
  /-- `SNE Vx,Vy` (9xy0) (R116). -/
  | sneReg (x y : RegIdx)
  /-- `LD I,nnn` (Annn) (R150). -/
  | ldI (nnn : Addr12)
  /-- `JP V0,nnn` (Bnnn) (R117). -/
  | jpV0 (nnn : Addr12)
  /-- `RND Vx,kk` (Cxkk) (R141). -/
  | rnd (x : RegIdx) (kk : Byte)
  /-- `DRW Vx,Vy,n` (Dxyn) (R161). -/
  | drw (x y : RegIdx) (n : Nibble)
  /-- `SKP Vx` (Ex9E) (R170). -/
  | skp (x : RegIdx)
  /-- `SKNP Vx` (ExA1) (R171). -/
  | sknp (x : RegIdx)
  /-- `LD Vx,DT` (Fx07) (R172). -/
  | ldVxDT (x : RegIdx)
  /-- `LD Vx,K` (Fx0A) (R173). -/
  | ldVxK (x : RegIdx)
  /-- `LD DT,Vx` (Fx15) (R174). -/
  | ldDTVx (x : RegIdx)
  /-- `LD ST,Vx` (Fx18) (R175). -/
  | ldSTVx (x : RegIdx)
  /-- `ADD I,Vx` (Fx1E) (R151). -/
  | addI (x : RegIdx)
deriving DecidableEq, Repr

end Sys2Proof
end

