-- ==== Sys2Proof/Decode.lean ====
section
/-!
DEFINITION. The stateless Decoder (spec/30_encoding.md R70 to R84): fields, decode, encode, and the opcode map R75.
The bit patterns are the spec's (its decisions D6, D7, D8): UNVERIFIED against the original program, unsafe, log entry 9.
-/

namespace Sys2Proof

/-! ## Fields of the instruction word (R71) -/

/-- `op`, bits 15:12: the opcode family. -/
def Word.op (w : Word) : Nat := (w.extractLsb' 12 4).toNat

/-- `x`, bits 11:8: the first register number. -/
def Word.x (w : Word) : RegIdx := (w.extractLsb' 8 4).toFin

/-- `y`, bits 7:4: the second register number. -/
def Word.y (w : Word) : RegIdx := (w.extractLsb' 4 4).toFin

/-- `n`, bits 3:0: the sprite height, or a sub-opcode. -/
def Word.n (w : Word) : Nibble := w.extractLsb' 0 4

/-- `kk`, bits 7:0: the 8-bit immediate, or a sub-opcode. -/
def Word.kk (w : Word) : Byte := w.extractLsb' 0 8

/-- `nnn`, bits 11:0: the address operand, the word masked with 0x0FFF (R64). -/
def Word.nnn (w : Word) : Addr12 := w.extractLsb' 0 12

/-- The instruction word of two bytes, the byte at the lower address high (R66). -/
def wordOfBytes (hi lo : Byte) : Word := BitVec.ofNat 16 (hi.toNat * 256 + lo.toNat)

/-- The high byte of a word, the one at the lower address (R66). -/
def Word.hiByte (w : Word) : Byte := w.extractLsb' 8 8

/-- The low byte of a word (R66). -/
def Word.loByte (w : Word) : Byte := w.extractLsb' 0 8

/-! ## Decode (R84) -/

/-- Why bytes are no instruction. -/
inductive DecodeError where
  /-- No row of R75 matches the word (R78): the machine then raises `UnimplementedOpcode`. -/
  | unimplemented (w : Word)
  /-- Fewer than the two bytes every instruction has (R70). -/
  | truncated
deriving DecidableEq, Repr

/-- Family 0: two exact words, every other word the null action (R77). -/
def decodeFamily0 (w : Word) : Instr :=
  if w = 0x00E0 then .cls else if w = 0x00EE then .ret else .nop0 w.nnn

/-- Family 8, selected by `n` (R74, R75). -/
def decodeFamily8 (w : Word) : Except DecodeError Instr :=
  match w.n.toNat with
  | 0x0 => .ok (.ldReg w.x w.y)
  | 0x1 => .ok (.orReg w.x w.y)
  | 0x2 => .ok (.andReg w.x w.y)
  | 0x3 => .ok (.xorReg w.x w.y)
  | 0x4 => .ok (.addReg w.x w.y)
  | 0x5 => .ok (.subReg w.x w.y)
  | 0x6 => .ok (.shr w.x w.y)
  | 0x7 => .ok (.subnReg w.x w.y)
  | 0xE => .ok (.shl w.x w.y)
  | _ => .error (.unimplemented w)

/-- Family E, selected by `kk`. -/
def decodeFamilyE (w : Word) : Except DecodeError Instr :=
  if w.kk = 0x9E then .ok (.skp w.x)
  else if w.kk = 0xA1 then .ok (.sknp w.x)
  else .error (.unimplemented w)

/-- Family F, selected by `kk`. -/
def decodeFamilyF (w : Word) : Except DecodeError Instr :=
  if w.kk = 0x07 then .ok (.ldVxDT w.x)
  else if w.kk = 0x0A then .ok (.ldVxK w.x)
  else if w.kk = 0x15 then .ok (.ldDTVx w.x)
  else if w.kk = 0x18 then .ok (.ldSTVx w.x)
  else if w.kk = 0x1E then .ok (.addI w.x)
  else .error (.unimplemented w)

/-- The decode function of R84: total and pure, its one failure the verdict `Unimplemented`. -/
def decode (w : Word) : Except DecodeError Instr :=
  match w.op with
  | 0x0 => .ok (decodeFamily0 w)
  | 0x1 => .ok (.jp w.nnn)
  | 0x2 => .ok (.call w.nnn)
  | 0x3 => .ok (.seImm w.x w.kk)
  | 0x4 => .ok (.sneImm w.x w.kk)
  | 0x5 => if w.n = 0 then .ok (.seReg w.x w.y) else .error (.unimplemented w)
  | 0x6 => .ok (.ldImm w.x w.kk)
  | 0x7 => .ok (.addImm w.x w.kk)
  | 0x8 => decodeFamily8 w
  | 0x9 => if w.n = 0 then .ok (.sneReg w.x w.y) else .error (.unimplemented w)
  | 0xA => .ok (.ldI w.nnn)
  | 0xB => .ok (.jpV0 w.nnn)
  | 0xC => .ok (.rnd w.x w.kk)
  | 0xD => .ok (.drw w.x w.y w.n)
  | 0xE => decodeFamilyE w
  | 0xF => decodeFamilyF w
  | _ => .error (.unimplemented w)

/-- Decode the first instruction of a byte sequence, high byte first (R66, R70), and give the rest of it. -/
def decodeBytes : List Byte → Except DecodeError (Instr × List Byte)
  | hi :: lo :: rest =>
    match decode (wordOfBytes hi lo) with
    | .ok i => .ok (i, rest)
    | .error e => .error e
  | [_] => .error .truncated
  | [] => .error .truncated

/-! ## Encode (R72, R75) -/

/-- Format NNN: family and address operand. -/
def packNNN (op : Nat) (nnn : Addr12) : Word := BitVec.ofNat 16 (op * 4096 + nnn.toNat)

/-- Format XKK: family, register number, 8-bit immediate. -/
def packXKK (op : Nat) (x : RegIdx) (kk : Byte) : Word :=
  BitVec.ofNat 16 (op * 4096 + x.val * 256 + kk.toNat)

/-- Formats XY and XYN: family, two register numbers, low nibble. -/
def packXYN (op : Nat) (x y : RegIdx) (n : Nibble) : Word :=
  BitVec.ofNat 16 (op * 4096 + x.val * 256 + y.val * 16 + n.toNat)

/-- The word of an instruction, from the map R75. -/
def encode : Instr → Word
  | .cls => 0x00E0
  | .ret => 0x00EE
  | .nop0 nnn => packNNN 0x0 nnn
  | .jp nnn => packNNN 0x1 nnn
  | .call nnn => packNNN 0x2 nnn
  | .seImm x kk => packXKK 0x3 x kk
  | .sneImm x kk => packXKK 0x4 x kk
  | .seReg x y => packXYN 0x5 x y 0x0
  | .ldImm x kk => packXKK 0x6 x kk
  | .addImm x kk => packXKK 0x7 x kk
  | .ldReg x y => packXYN 0x8 x y 0x0
  | .orReg x y => packXYN 0x8 x y 0x1
  | .andReg x y => packXYN 0x8 x y 0x2
  | .xorReg x y => packXYN 0x8 x y 0x3
  | .addReg x y => packXYN 0x8 x y 0x4
  | .subReg x y => packXYN 0x8 x y 0x5
  | .shr x y => packXYN 0x8 x y 0x6
  | .subnReg x y => packXYN 0x8 x y 0x7
  | .shl x y => packXYN 0x8 x y 0xE
  | .sneReg x y => packXYN 0x9 x y 0x0
  | .ldI nnn => packNNN 0xA nnn
  | .jpV0 nnn => packNNN 0xB nnn
  | .rnd x kk => packXKK 0xC x kk
  | .drw x y n => packXYN 0xD x y n
  | .skp x => packXKK 0xE x 0x9E
  | .sknp x => packXKK 0xE x 0xA1
  | .ldVxDT x => packXKK 0xF x 0x07
  | .ldVxK x => packXKK 0xF x 0x0A
  | .ldDTVx x => packXKK 0xF x 0x15
  | .ldSTVx x => packXKK 0xF x 0x18
  | .addI x => packXKK 0xF x 0x1E

/-- The bytes of an instruction as memory holds them, high byte first (R66). -/
def encodeBytes (i : Instr) : List Byte := [(encode i).hiByte, (encode i).loByte]

/-! ## The opcode map as a table (R75) -/

/-- One row of the map: a word `w` matches it iff `w AND mask = pattern`. -/
structure OpcodeRow where
  pattern : Word
  mask : Word
deriving DecidableEq, Repr

/-- R75's selection test. -/
def OpcodeRow.matches (r : OpcodeRow) (w : Word) : Bool := (w &&& r.mask) == r.pattern

/-- The row of R75 an instruction belongs to. -/
def Instr.row : Instr → OpcodeRow
  | .cls => ⟨0x00E0, 0xFFFF⟩
  | .ret => ⟨0x00EE, 0xFFFF⟩
  | .nop0 _ => ⟨0x0000, 0xF000⟩
  | .jp _ => ⟨0x1000, 0xF000⟩
  | .call _ => ⟨0x2000, 0xF000⟩
  | .seImm _ _ => ⟨0x3000, 0xF000⟩
  | .sneImm _ _ => ⟨0x4000, 0xF000⟩
  | .seReg _ _ => ⟨0x5000, 0xF00F⟩
  | .ldImm _ _ => ⟨0x6000, 0xF000⟩
  | .addImm _ _ => ⟨0x7000, 0xF000⟩
  | .ldReg _ _ => ⟨0x8000, 0xF00F⟩
  | .orReg _ _ => ⟨0x8001, 0xF00F⟩
  | .andReg _ _ => ⟨0x8002, 0xF00F⟩
  | .xorReg _ _ => ⟨0x8003, 0xF00F⟩
  | .addReg _ _ => ⟨0x8004, 0xF00F⟩
  | .subReg _ _ => ⟨0x8005, 0xF00F⟩
  | .shr _ _ => ⟨0x8006, 0xF00F⟩
  | .subnReg _ _ => ⟨0x8007, 0xF00F⟩
  | .shl _ _ => ⟨0x800E, 0xF00F⟩
  | .sneReg _ _ => ⟨0x9000, 0xF00F⟩
  | .ldI _ => ⟨0xA000, 0xF000⟩
  | .jpV0 _ => ⟨0xB000, 0xF000⟩
  | .rnd _ _ => ⟨0xC000, 0xF000⟩
  | .drw _ _ _ => ⟨0xD000, 0xF000⟩
  | .skp _ => ⟨0xE09E, 0xF0FF⟩
  | .sknp _ => ⟨0xE0A1, 0xF0FF⟩
  | .ldVxDT _ => ⟨0xF007, 0xF0FF⟩
  | .ldVxK _ => ⟨0xF00A, 0xF0FF⟩
  | .ldDTVx _ => ⟨0xF015, 0xF0FF⟩
  | .ldSTVx _ => ⟨0xF018, 0xF0FF⟩
  | .addI _ => ⟨0xF01E, 0xF0FF⟩

/-- The 31 rows of R75 in order. -/
def opcodeMap : List OpcodeRow :=
  [⟨0x00E0, 0xFFFF⟩, ⟨0x00EE, 0xFFFF⟩, ⟨0x0000, 0xF000⟩, ⟨0x1000, 0xF000⟩, ⟨0x2000, 0xF000⟩,
   ⟨0x3000, 0xF000⟩, ⟨0x4000, 0xF000⟩, ⟨0x5000, 0xF00F⟩, ⟨0x6000, 0xF000⟩, ⟨0x7000, 0xF000⟩] ++
  [⟨0x8000, 0xF00F⟩, ⟨0x8001, 0xF00F⟩, ⟨0x8002, 0xF00F⟩, ⟨0x8003, 0xF00F⟩, ⟨0x8004, 0xF00F⟩,
   ⟨0x8005, 0xF00F⟩, ⟨0x8006, 0xF00F⟩, ⟨0x8007, 0xF00F⟩, ⟨0x800E, 0xF00F⟩, ⟨0x9000, 0xF00F⟩] ++
  [⟨0xA000, 0xF000⟩, ⟨0xB000, 0xF000⟩, ⟨0xC000, 0xF000⟩, ⟨0xD000, 0xF000⟩, ⟨0xE09E, 0xF0FF⟩,
   ⟨0xE0A1, 0xF0FF⟩, ⟨0xF007, 0xF0FF⟩, ⟨0xF00A, 0xF0FF⟩, ⟨0xF015, 0xF0FF⟩, ⟨0xF018, 0xF0FF⟩,
   ⟨0xF01E, 0xF0FF⟩]

/-- The host's reading of a table row: the `nbits` low bits of `w` as the instruction word (every higher bit 0), laid
out high byte first and given to `decodeBytes`. -/
def decodeTableWord (nbits w : Nat) : Option Instr :=
  let word : Word := BitVec.ofNat 16 (w % 2 ^ nbits)
  match decodeBytes [Word.hiByte word, Word.loByte word] with
  | .ok (i, _) => some i
  | .error _ => none

end Sys2Proof
end

