-- ==== Sys2Proof/Config.lean ====
section
/-!
DEFINITION. What an implementation of CORE fixes (spec/00_scope.md R4 to R6): the font's place, which the source gives
(R4); the configuration Params, one field with a default for each parameter the source leaves open (R5), under the
constraints of R6; and the one free value, the random byte (R38). The machine is written over any Params; the host's
fixed names (State, exec, step) are the machine at Config.params, where every field has its default.
The defaults are the spec's own (its decisions D1 to D5), PRESUMED there: unsafe, log entries 1 and 2.
-/

namespace Sys2Proof

/-! ## Parameters the source gives (R4) -/

/-- `FONT_BASE`, the address of the font table. -/
abbrev Config.fontBase : Nat := 0

/-- `FONT_LEN`, the number of font bytes. -/
abbrev Config.fontLen : Nat := 80

/-! ## Parameters the source leaves open (R5) -/

/-- The default of `FONT[0..79]`: sixteen glyphs of five bytes, the table of R52 (D5). -/
def Config.defaultFont : List Byte :=
  [0xF0, 0x90, 0x90, 0x90, 0xF0] ++ [0x20, 0x60, 0x20, 0x20, 0x70] ++
  [0xF0, 0x10, 0xF0, 0x80, 0xF0] ++ [0xF0, 0x10, 0xF0, 0x10, 0xF0] ++
  [0x90, 0x90, 0xF0, 0x10, 0x10] ++ [0xF0, 0x80, 0xF0, 0x10, 0xF0] ++
  [0xF0, 0x80, 0xF0, 0x90, 0xF0] ++ [0xF0, 0x10, 0x20, 0x40, 0x40] ++
  [0xF0, 0x90, 0xF0, 0x90, 0xF0] ++ [0xF0, 0x90, 0xF0, 0x10, 0xF0] ++
  [0xF0, 0x90, 0xF0, 0x90, 0x90] ++ [0xE0, 0x90, 0xE0, 0x90, 0xE0] ++
  [0xF0, 0x80, 0x80, 0x80, 0xF0] ++ [0xE0, 0x90, 0x90, 0x90, 0xE0] ++
  [0xF0, 0x80, 0xF0, 0x80, 0xF0] ++ [0xF0, 0x80, 0xF0, 0x80, 0x80]

/-- The configuration of a core: the parameters of R5, each a field with the spec's default, and the constraints R6 puts
on them. Every term of this type is a configuration of the model. -/
structure Params where
  /-- `MEM_SIZE`, the number of memory bytes (D1). -/
  memSize : Nat := 4096
  /-- `PROG_START`, where the program is loaded and where `pc` starts (D2). -/
  progStart : Nat := 0x200
  /-- `STACK_DEPTH`, the number of return-address slots (D3). -/
  stackDepth : Nat := 16
  /-- `DISP_W`, the number of pixel columns (D4). -/
  dispW : Nat := 64
  /-- `DISP_H`, the number of pixel rows (D4). -/
  dispH : Nat := 32
  /-- `FONT[0..79]` (D5). -/
  font : List Byte := Config.defaultFont
  /-- R6, and the length of the font. -/
  consistent : Config.fontBase + Config.fontLen ≤ progStart ∧ progStart % 2 = 0 ∧ progStart + 2 ≤ memSize ∧
    memSize ≤ 65536 ∧ 8 ≤ dispW ∧ 15 ≤ dispH ∧ 2 ≤ stackDepth ∧ font.length = Config.fontLen := by decide
deriving DecidableEq, Repr

/-- The configuration of the host's machine: every parameter at its default. -/
abbrev Config.params : Params := {}

/-- The random source's answer to the `n`-th draw: a FREE VALUE under no law (R38, D23, R196; U6).
It has no body, so no proof can know a value of it. Safe: log entry 4. -/
opaque Config.rnd : Nat → Byte

end Sys2Proof
end

