-- ==== Sys2Proof/Machine/State.lean ====
section
/-!
DEFINITION. The state of CORE: every piece of state spec/10_state.md names (R20 to R32), as plain data, and three fields
of the model's own: `pcHigh`, where a sum that leaves the 16-bit `pc` goes (R222), `lastResult`, the output of the last
step (R39), and `draws`, the counter behind the free random byte (R38). INVENTORY.md lists each with its rule and its reset value.
-/

namespace Sys2Proof.Machine

/-- The fault record of R180. A fault is part of the machine's STATE: the step that raises it stores it in the latch
`State.fault` (R31, R188) and answers a next state; no step answers `Host.Outcome.fault` (log entry 5). -/
inductive Fault where
  /-- Kind 1. Raised by the fetch and by `DRW` (R181): `addr` is the first invalid address, unbounded.
  Safe: the spec's source calls it fatal. -/
  | memoryOutOfBounds (addr : Nat)
  /-- Kind 2. Raised by `CALL` with `sp = STACK_DEPTH - 1` (R182).
  Unsafe if a real stack holds one entry more (C8, log entry 12). -/
  | stackOverflow
  /-- Kind 3. Raised by `RET` with `sp = 0` (R183). Safe: the source calls it fatal. -/
  | stackUnderflow
  /-- Kind 4. Raised by the step on a word no row of R75 matches (R184).
  Unsafe where a real decoder accepts the word, or its host skips it (log entries 6 and 9). -/
  | unimplementedOpcode (w : Word)
  /-- Kind 5, the spec's own. Raised by the fetch when `pc` is odd (R185).
  Unsafe if a real core executes odd addresses (log entry 7). -/
  | misalignedPc (pc : Word)
  /-- Kind 6, the spec's own. Raised by `SKP` and `SKNP` when `V[x] > 15` (R186).
  Unsafe if a real core masks the key index (log entry 8). -/
  | keyIndexOutOfRange (v : Byte)
deriving DecidableEq, Repr

/-- Why something has no meaning in this model. -/
inductive Refusal where
  /-- An instruction not modelled yet, rejected by name in `exec`; no arm uses it. Safe. -/
  | notModelled (mnemonic : String)
  /-- A host action outside the closed list of R192 (U17), refused by `runMoves`; never by `exec` or `step`. Safe. -/
  | notAHostMove
deriving DecidableEq, Repr

/-- The four results of a step (R94). -/
inductive StepResult where
  /-- An instruction other than `NOP0` executed. -/
  | ok
  /-- The null action executed. -/
  | okNull
  /-- `LD Vx,K` executed with no key pressed. -/
  | waiting
  /-- A fault was raised in this step, or the core was already halted. -/
  | err (f : Fault)
deriving DecidableEq, Repr

/-- The display: `DISP_H` rows of `DISP_W` pixels, row 0 on top, column 0 on the left (R29). -/
abbrev Display (cfg : Params) := Vector (Vector Bool cfg.dispW) cfg.dispH

/-- The memory block as plain data: the cells that differ from their reset contents, addresses rising (R32).
What an unlisted address reads as is `Memory.unlisted`; the canonical form is `Memory.wf`. -/
abbrev Memory := List Host.Cell

/-- The machine state (R20 to R32) of a core with the given configuration; `State` alone is the state at the defaults. -/
structure State (cfg : Params := Config.params) where
  /-- `V0` to `VF` (R20, R21). -/
  v : Vector Byte 16
  /-- `I`, the index register (R22). -/
  i : Word
  /-- The program counter: during execution the address of the instruction itself (R23). -/
  pc : Word
  /-- The model's own: how many times 2^16 the address of the next instruction exceeds `pc`. It is 0 wherever an
  instruction is fetched, and always where `MEM_SIZE` is at most 65533, as by default (R24, R222, log entry 18). -/
  pcHigh : Nat
  /-- The stack pointer, the number of return addresses held, always below `STACK_DEPTH` (R25). -/
  sp : Fin cfg.stackDepth
  /-- The return-address stack (R26). -/
  stack : Vector Word cfg.stackDepth
  /-- The delay timer (R27). -/
  dt : Byte
  /-- The sound timer (R27). -/
  st : Byte
  /-- The key flags, true meaning pressed (R28). -/
  key : Vector Bool 16
  /-- The display bitmap (R29). -/
  disp : Display cfg
  /-- The display's dirty flag (R30). -/
  dirty : Bool
  /-- Memory (R32). -/
  mem : Memory
  /-- The fault latch (R31). -/
  fault : Option Fault
  /-- The model's own: the output of the last step, `none` before the first step after reset (R39, log entry 3). -/
  lastResult : Option StepResult
  /-- The model's own: how many random bytes have been drawn (R38, log entry 4). -/
  draws : Nat
deriving DecidableEq, Repr

/-- A core of any configuration right after `Reset` (R36, R210). Memory lists nothing: an unlisted address reads as its
reset contents, the font table and zeros. -/
def State.resetAt (cfg : Params) : State cfg where
  v := Vector.replicate 16 0
  i := 0
  pc := BitVec.ofNat 16 cfg.progStart
  pcHigh := 0
  sp := ⟨0, by have := cfg.consistent; omega⟩
  stack := Vector.replicate cfg.stackDepth 0
  dt := 0
  st := 0
  key := Vector.replicate 16 false
  disp := Vector.replicate cfg.dispH (Vector.replicate cfg.dispW false)
  dirty := false
  mem := []
  fault := none
  lastResult := none
  draws := 0

/-- The machine right after `Reset`, at the default configuration. -/
def State.reset : State := State.resetAt Config.params

end Sys2Proof.Machine
end

