-- ==== Sys2Proof/Machine/Memory.lean ====
section
/-!
DEFINITION. The memory block (spec/20_memory.md): reset contents, one read and one write of a cell, the canonical form,
and the read primitive `MemRead(addr, 1)` with its bounds check (R53).
-/

namespace Sys2Proof.Machine

variable {cfg : Params}

/-- What an address nothing has been loaded to reads as: the font table at `FONT_BASE`, 0 elsewhere (R32, R36, R52). -/
def Memory.unlisted (cfg : Params) (a : Nat) : Byte :=
  if Config.fontBase ≤ a ∧ a < Config.fontBase + Config.fontLen then
    cfg.font.getD (a - Config.fontBase) 0
  else 0

/-- The byte at an address, without the bounds check. -/
def Memory.get (cfg : Params) : Memory → Nat → Byte
  | [], a => Memory.unlisted cfg a
  | (k, b) :: m, a => if k = a then b else Memory.get cfg m a

/-- Write one byte, keeping the canonical form: a byte equal to what the address reads as unlisted is not listed. -/
def Memory.set (cfg : Params) : Memory → Nat → Byte → Memory
  | [], a, b => if b = Memory.unlisted cfg a then [] else [(a, b)]
  | (k, c) :: m, a, b =>
    if a < k then
      if b = Memory.unlisted cfg a then (k, c) :: m else (a, b) :: (k, c) :: m
    else if a = k then
      if b = Memory.unlisted cfg a then m else (a, b) :: m
    else (k, c) :: Memory.set cfg m a b

/-- The canonical form from address `lo` up: addresses strictly rising, all of them existing, and no entry equal to what
its address reads as unlisted. -/
def Memory.wfFrom (cfg : Params) : Nat → Memory → Bool
  | _, [] => true
  | lo, (k, b) :: m =>
    decide (lo ≤ k) && decide (k < cfg.memSize) && (b != Memory.unlisted cfg k) && Memory.wfFrom cfg (k + 1) m

/-- The canonical form of memory. -/
def Memory.wf (cfg : Params) (m : Memory) : Bool := Memory.wfFrom cfg 0 m

/-- Does the address exist? Valid addresses are `0 ≤ a < MEM_SIZE` (R50). -/
def addressExists (cfg : Params) (a : Nat) : Bool := decide (a < cfg.memSize)

/-- `MemRead(addr, 1)` (R53): the address is a natural number and never wraps. -/
def State.memRead (s : State cfg) (a : Nat) : Except Fault Byte :=
  if addressExists cfg a then .ok (Memory.get cfg s.mem a) else .error (.memoryOutOfBounds a)

/-- `MemWrite(addr, 1, b)`: used only by the host's program load (R58, R59); an address that does not exist is left
alone. -/
def State.memWrite (s : State cfg) (a : Nat) (b : Byte) : State cfg :=
  if addressExists cfg a then { s with mem := Memory.set cfg s.mem a b } else s

/-- Write consecutive bytes from an address up (the loop of R59). -/
def State.memWriteBytes (s : State cfg) (a : Nat) : List Byte → State cfg
  | [] => s
  | b :: bs => (s.memWrite a b).memWriteBytes (a + 1) bs

end Sys2Proof.Machine
end

