-- ==== Sys2Proof/Machine/Operands.lean ====
section
/-!
DEFINITION. The operand forms of CORE (R73): a V register, the zero-extended address operand, the jump-with-offset sum,
the sprite row address (the one data addressing mode, R57), and the key a register selects (R176).
-/

namespace Sys2Proof.Machine

variable {cfg : Params}

/-- Read `V[x]` (R20). -/
def State.readV (s : State cfg) (x : RegIdx) : Byte := s.v[x]

/-- The address operand, `zext_16(nnn)` (R64, R73). -/
def addrOperand (nnn : Addr12) : Word := nnn.setWidth 16

/-- `zext_16(nnn) + zext_16(V[0])`: at most 0x10FE, neither wrapped nor masked (R117). -/
def offsetTarget (nnn : Addr12) (v0 : Byte) : Word := addrOperand nnn + v0.setWidth 16

/-- The effective address of sprite row `r`: `I + r` in unbounded arithmetic (R57). -/
def rowAddr (base : Word) (r : Nat) : Nat := base.toNat + r

/-- The key whose number a register holds; a number above 15 selects none (R176). -/
def keyOperand (b : Byte) : Except Fault KeyIdx :=
  if h : b.toNat < 16 then .ok ⟨b.toNat, h⟩ else .error (.keyIndexOutOfRange b)

/-- The sprite bytes at rows `r` to `r + n - 1` from `base`; the lowest address that does not exist is the one reported
(R161). -/
def State.readSprite (s : State cfg) (base : Word) : (n r : Nat) → Except Fault (List Byte)
  | 0, _ => .ok []
  | n + 1, r =>
    match s.memRead (rowAddr base r) with
    | .error f => .error f
    | .ok b =>
      match s.readSprite base n (r + 1) with
      | .error f => .error f
      | .ok bs => .ok (b :: bs)

end Sys2Proof.Machine
end

