-- ==== Sys2Proof/Machine/Ops.lean ====
section
/-!
DEFINITION. The named operations the meanings are written over: register writes, the program-counter disciplines (R92),
the return-address stack (R25), the key scan (R173), how a step ends (R94), fault entry (R188) and the fetch (R54).
There is no return from a fault (R189), so no operation leaves the halted state but the host's `Reset`.
-/

namespace Sys2Proof.Machine

variable {cfg : Params}

/-! ## Registers -/

/-- `V[x] <- b` (R20). -/
def State.writeV (s : State cfg) (x : RegIdx) (b : Byte) : State cfg := { s with v := s.v.set x b }

/-- `V[15] <- flag`: the flag write of R21. -/
def State.writeFlag (s : State cfg) (flag : Bool) : State cfg := s.writeV flagReg (flagByte flag)

/-- The result first, the flag last: the order of writes of R143. -/
def State.writeResultFlag (s : State cfg) (x : RegIdx) (b : Byte) (flag : Bool) : State cfg :=
  (s.writeV x b).writeFlag flag

/-- `I <- w` (R22). -/
def State.writeI (s : State cfg) (w : Word) : State cfg := { s with i := w }

/-- `dt <- b` (R27). -/
def State.writeDT (s : State cfg) (b : Byte) : State cfg := { s with dt := b }

/-- `st <- b` (R27). -/
def State.writeST (s : State cfg) (b : Byte) : State cfg := { s with st := b }

/-! ## The program counter (R92, R93) -/

/-- The address of the next instruction: `pc`, and what a sum carried out of it. -/
def State.pcAddr (s : State cfg) : Nat := 65536 * s.pcHigh + s.pc.toNat

/-- Make `a` the address of the next instruction. It never wraps (R222): what 16 bits cannot hold is kept beside `pc`
(log entry 18). -/
def State.setPcAddr (s : State cfg) (a : Nat) : State cfg := { s with pc := BitVec.ofNat 16 a, pcHigh := a / 65536 }

/-- Discipline (a): `pc <- pc + 2`. -/
def State.advance (s : State cfg) : State cfg := s.setPcAddr (s.pcAddr + 2)

/-- Discipline (b), a skip: `pc + 4` when the condition holds, else `pc + 2`. -/
def State.skipWhen (s : State cfg) (c : Bool) : State cfg := s.setPcAddr (if c then s.pcAddr + 4 else s.pcAddr + 2)

/-- Discipline (b), a transfer: `pc <- target`, nothing added. -/
def State.jump (s : State cfg) (target : Word) : State cfg := { s with pc := target, pcHigh := 0 }

/-! ## The return-address stack (R25, R26) -/

/-- Push `pc`: write the slot, then increment; `sp` may not leave `[0, STACK_DEPTH)` (R112, D10). -/
def State.push (s : State cfg) : Except Fault (State cfg) :=
  if h : s.sp.val + 1 < cfg.stackDepth then
    .ok { s with stack := s.stack.set s.sp s.pc, sp := ⟨s.sp.val + 1, h⟩ }
  else .error .stackOverflow

/-- The slot below the stack pointer. -/
def spBelow (sp : Fin cfg.stackDepth) : Fin cfg.stackDepth :=
  ⟨sp.val - 1, Nat.lt_of_le_of_lt (Nat.sub_le _ _) sp.isLt⟩

/-- Pop into `pc`: decrement, then read; the slot is not cleared (R110). -/
def State.pop (s : State cfg) : Except Fault (State cfg) :=
  if s.sp.val = 0 then .error .stackUnderflow
  else .ok { s with sp := spBelow s.sp, pc := s.stack[spBelow s.sp], pcHigh := 0 }

/-! ## The keypad (R28) -/

/-- Read `key[k]`. -/
def State.keyDown (s : State cfg) (k : KeyIdx) : Bool := s.key[k]

/-- The smallest pressed key, if any (R173). -/
def State.firstKey (s : State cfg) : Option KeyIdx := (List.finRange 16).find? s.keyDown

/-! ## The random source (R38) -/

/-- Take this step's random byte: the free value of the draw, and the state with the draw counted. -/
def State.draw (s : State cfg) : Byte × State cfg := (Config.rnd s.draws, { s with draws := s.draws + 1 })

/-! ## How a step ends (R94, R188) -/

/-- The step ends with a success result. -/
def finish (r : StepResult) (s : State cfg) : Host.Outcome (State cfg) Fault Refusal :=
  .next { s with lastResult := some r }

/-- Fault entry (R188), the one operation every fault takes: from the state BEFORE the step, nothing but the latch and
the result changes. -/
def raise (f : Fault) (s : State cfg) : Host.Outcome (State cfg) Fault Refusal :=
  .next { s with fault := some f, lastResult := some (.err f) }

/-- End an instruction with its `Ok` state, or with the fault it raised, discarding every write (R96). -/
def finishOr (s : State cfg) : Except Fault (State cfg) → Host.Outcome (State cfg) Fault Refusal
  | .ok t => finish .ok t
  | .error f => raise f s

/-- A step of a halted core changes nothing and returns the latched fault again (R91 step 0, R188). -/
def haltedStep (f : Fault) (s : State cfg) : Host.Outcome (State cfg) Fault Refusal := finish (.err f) s

/-! ## Fault codes (R180, D15) -/

/-- The kind number of a fault; 0 is kept for no fault. -/
def faultCode : Option Fault → Nat
  | none => 0
  | some (.memoryOutOfBounds _) => 1
  | some .stackOverflow => 2
  | some .stackUnderflow => 3
  | some (.unimplementedOpcode _) => 4
  | some (.misalignedPc _) => 5
  | some (.keyIndexOutOfRange _) => 6

/-- The information recorded with a fault, 0 where R180 lists none. -/
def faultInfo : Option Fault → Nat
  | none => 0
  | some (.memoryOutOfBounds a) => a
  | some .stackOverflow => 0
  | some .stackUnderflow => 0
  | some (.unimplementedOpcode w) => w.toNat
  | some (.misalignedPc p) => p.toNat
  | some (.keyIndexOutOfRange v) => v.toNat

/-! ## Fetch (R54, R55) and decode (R91 steps 1 to 3) -/

/-- The instruction fetch: bounds first, then alignment, then the two bytes, high byte first. -/
def State.fetchWord (s : State cfg) : Except Fault Word :=
  if !addressExists cfg (s.pcAddr + 1) then .error (.memoryOutOfBounds (s.pcAddr + 1))
  else if s.pcAddr % 2 = 1 then .error (.misalignedPc s.pc)
  else .ok (wordOfBytes (Memory.get cfg s.mem s.pcAddr) (Memory.get cfg s.mem (s.pcAddr + 1)))

/-- Fetch and decode; an unmatched word is the fault of R184. -/
def State.fetchInstr (s : State cfg) : Except Fault Instr :=
  match s.fetchWord with
  | .error f => .error f
  | .ok w =>
    match decode w with
    | .error _ => .error (.unimplementedOpcode w)
    | .ok i => .ok i

/-- Store an instruction word where the next fetch reads it, high byte first (what `withFetchWord` does). -/
def State.storeFetchWord (s : State cfg) (w : Word) : State cfg :=
  (s.memWrite s.pcAddr w.hiByte).memWrite (s.pcAddr + 1) w.loByte

end Sys2Proof.Machine
end

