-- ==== Sys2Proof/Machine/ArithLogic.lean ====
section
/-!
DEFINITION. The arithmetic, logic, shift and random instructions (spec/42_arith_logic.md). Operands are read first, the
result is written next, the flag last (R143); each ends with `pc + 2`.
-/

namespace Sys2Proof.Machine

variable {cfg : Params}

/-- `LD Vx,kk` (R130). -/
def execLdImm (x : RegIdx) (kk : Byte) (s : State cfg) : Host.Outcome (State cfg) Fault Refusal :=
  finish .ok (s.writeV x kk).advance

/-- `ADD Vx,kk` (R131): no flag. -/
def execAddImm (x : RegIdx) (kk : Byte) (s : State cfg) : Host.Outcome (State cfg) Fault Refusal :=
  finish .ok (s.writeV x (addWrap (s.readV x) kk)).advance

/-- `LD Vx,Vy` (R132). -/
def execLdReg (x y : RegIdx) (s : State cfg) : Host.Outcome (State cfg) Fault Refusal :=
  finish .ok (s.writeV x (s.readV y)).advance

/-- `OR Vx,Vy` (R133): VF is left alone (R144). -/
def execOrReg (x y : RegIdx) (s : State cfg) : Host.Outcome (State cfg) Fault Refusal :=
  finish .ok (s.writeV x (s.readV x ||| s.readV y)).advance

/-- `AND Vx,Vy` (R134): VF is left alone. -/
def execAndReg (x y : RegIdx) (s : State cfg) : Host.Outcome (State cfg) Fault Refusal :=
  finish .ok (s.writeV x (s.readV x &&& s.readV y)).advance

/-- `XOR Vx,Vy` (R135): VF is left alone. -/
def execXorReg (x y : RegIdx) (s : State cfg) : Host.Outcome (State cfg) Fault Refusal :=
  finish .ok (s.writeV x (s.readV x ^^^ s.readV y)).advance

/-- `ADD Vx,Vy` (R136): VF is the carry. -/
def execAddReg (x y : RegIdx) (s : State cfg) : Host.Outcome (State cfg) Fault Refusal :=
  finish .ok (s.writeResultFlag x (addWrap (s.readV x) (s.readV y)) (carry (s.readV x) (s.readV y))).advance

/-- `SUB Vx,Vy` (R137): VF is "no borrow". -/
def execSubReg (x y : RegIdx) (s : State cfg) : Host.Outcome (State cfg) Fault Refusal :=
  finish .ok (s.writeResultFlag x (subWrap (s.readV x) (s.readV y)) (noBorrow (s.readV x) (s.readV y))).advance

/-- `SUBN Vx,Vy` (R138): `Vy - Vx` into `Vx`, VF is "no borrow". -/
def execSubnReg (x y : RegIdx) (s : State cfg) : Host.Outcome (State cfg) Fault Refusal :=
  finish .ok (s.writeResultFlag x (subWrap (s.readV y) (s.readV x)) (noBorrow (s.readV y) (s.readV x))).advance

/-- `SHR Vx` (R139): shifts `Vx` in place; `y` is ignored (R79). -/
def execShr (x _y : RegIdx) (s : State cfg) : Host.Outcome (State cfg) Fault Refusal :=
  finish .ok (s.writeResultFlag x (shiftRight1 (s.readV x)) (bitOutRight (s.readV x))).advance

/-- `SHL Vx` (R140): shifts `Vx` in place; `y` is ignored (R79). -/
def execShl (x _y : RegIdx) (s : State cfg) : Host.Outcome (State cfg) Fault Refusal :=
  finish .ok (s.writeResultFlag x (shiftLeft1 (s.readV x)) (bitOutLeft (s.readV x))).advance

/-- `RND Vx,kk` (R141): the drawn byte, a free value, masked with `kk`. -/
def execRnd (x : RegIdx) (kk : Byte) (s : State cfg) : Host.Outcome (State cfg) Fault Refusal :=
  finish .ok (s.draw.2.writeV x (s.draw.1 &&& kk)).advance

end Sys2Proof.Machine
end

