-- ==== Sys2Proof/Machine/ControlFlow.lean ====
section
/-!
DEFINITION. The null action (spec/40_step_cycle.md R95) and the control-flow instructions (spec/41_control_flow.md).
The skips and transfers assign `pc` and nothing is added afterwards (discipline (b), R92).
-/

namespace Sys2Proof.Machine

variable {cfg : Params}

/-- `NOP0` (R95): advances `pc`, and is reported as the null action. The operand is ignored. -/
def execNop0 (_nnn : Addr12) (s : State cfg) : Host.Outcome (State cfg) Fault Refusal := finish .okNull s.advance

/-- `RET` (R110). -/
def execRet (s : State cfg) : Host.Outcome (State cfg) Fault Refusal := finishOr s s.pop

/-- `JP nnn` (R111). -/
def execJp (nnn : Addr12) (s : State cfg) : Host.Outcome (State cfg) Fault Refusal :=
  finish .ok (s.jump (addrOperand nnn))

/-- `CALL nnn` (R112): pushes the address of the `CALL` itself. -/
def execCall (nnn : Addr12) (s : State cfg) : Host.Outcome (State cfg) Fault Refusal :=
  finishOr s (s.push.map fun t => t.jump (addrOperand nnn))

/-- `SE Vx,kk` (R113). -/
def execSeImm (x : RegIdx) (kk : Byte) (s : State cfg) : Host.Outcome (State cfg) Fault Refusal :=
  finish .ok (s.skipWhen (s.readV x == kk))

/-- `SNE Vx,kk` (R114). -/
def execSneImm (x : RegIdx) (kk : Byte) (s : State cfg) : Host.Outcome (State cfg) Fault Refusal :=
  finish .ok (s.skipWhen (s.readV x != kk))

/-- `SE Vx,Vy` (R115). -/
def execSeReg (x y : RegIdx) (s : State cfg) : Host.Outcome (State cfg) Fault Refusal :=
  finish .ok (s.skipWhen (s.readV x == s.readV y))

/-- `SNE Vx,Vy` (R116). -/
def execSneReg (x y : RegIdx) (s : State cfg) : Host.Outcome (State cfg) Fault Refusal :=
  finish .ok (s.skipWhen (s.readV x != s.readV y))

/-- `JP V0,nnn` (R117): always register 0. -/
def execJpV0 (nnn : Addr12) (s : State cfg) : Host.Outcome (State cfg) Fault Refusal :=
  finish .ok (s.jump (offsetTarget nnn (s.readV 0)))

end Sys2Proof.Machine
end

