-- ==== Sys2Proof/Machine/Display.lean ====
section
/-!
DEFINITION. The display instructions (spec/44_display.md): the pixel operations, the sprite loop of R161 and the
meanings of `CLS` and `DRW`.
-/

namespace Sys2Proof.Machine

variable {cfg : Params}

/-- Pixel at row `r`, column `c` (R29). -/
def Display.pixel (d : Display cfg) (r : Fin cfg.dispH) (c : Fin cfg.dispW) : Bool := (d[r])[c]

/-- The display with one pixel set to `b`. -/
def Display.setPixel (d : Display cfg) (r : Fin cfg.dispH) (c : Fin cfg.dispW) (b : Bool) : Display cfg :=
  d.set r ((d[r]).set c b)

/-- Every pixel false. -/
def Display.blank : Display cfg := Vector.replicate cfg.dispH (Vector.replicate cfg.dispW false)

/-- What the loop of R161 carries: the display, `collision` and `changed`. -/
structure Canvas (cfg : Params) where
  disp : Display cfg
  collision : Bool
  changed : Bool
deriving DecidableEq, Repr

/-- The row a coordinate wraps to (R163). -/
def wrapRow (r : Nat) : Fin cfg.dispH := ⟨r % cfg.dispH, Nat.mod_lt _ (by have := cfg.consistent; omega)⟩

/-- The column a coordinate wraps to (R163). -/
def wrapCol (c : Nat) : Fin cfg.dispW := ⟨c % cfg.dispW, Nat.mod_lt _ (by have := cfg.consistent; omega)⟩

/-- Bit `c` of a sprite row counted from the left: bit 7 is the leftmost pixel (R162). -/
def spriteBit (b : Byte) (c : Nat) : Bool := b.getLsbD (7 - c)

/-- Invert one pixel at wrapped coordinates, noting a collision when it was set (R161). -/
def flipPixel (row col : Nat) (k : Canvas cfg) : Canvas cfg where
  disp := Display.setPixel k.disp (wrapRow row) (wrapCol col) (!Display.pixel k.disp (wrapRow row) (wrapCol col))
  collision := k.collision || Display.pixel k.disp (wrapRow row) (wrapCol col)
  changed := true

/-- One sprite column: a 1 bit inverts its pixel, a 0 bit leaves it alone. -/
def drawBit (b : Byte) (row cx c : Nat) (k : Canvas cfg) : Canvas cfg :=
  if spriteBit b c then flipPixel row (cx + c) k else k

/-- One sprite row: columns `c`, `c + 1`, ... for `n` columns. -/
def drawColumns (b : Byte) (row cx : Nat) : (n c : Nat) → Canvas cfg → Canvas cfg
  | 0, _, k => k
  | n + 1, c, k => drawColumns b row cx n (c + 1) (drawBit b row cx c k)

/-- One sprite row of eight pixels. -/
def drawRow (b : Byte) (row cx : Nat) (k : Canvas cfg) : Canvas cfg := drawColumns b row cx 8 0 k

/-- The rows of a sprite, the first at row `cy + r`, going downward. -/
def drawRows (cx cy : Nat) : List Byte → (r : Nat) → Canvas cfg → Canvas cfg
  | [], _, k => k
  | b :: bs, r, k => drawRows cx cy bs (r + 1) (drawRow b (cy + r) cx k)

/-- Draw a sprite at column `cx`, row `cy`. -/
def drawSprite (cx cy : Byte) (sprite : List Byte) (d : Display cfg) : Canvas cfg :=
  drawRows cx.toNat cy.toNat sprite 0 ⟨d, false, false⟩

/-- Store what a draw did: pixels, VF (always written), `dirty` (set iff a pixel changed, never cleared here). -/
def State.putCanvas (s : State cfg) (k : Canvas cfg) : State cfg :=
  { s with disp := k.disp, dirty := s.dirty || k.changed }.writeFlag k.collision

/-- `CLS` (R160): sets `dirty` whether or not a pixel changed. -/
def execCls (s : State cfg) : Host.Outcome (State cfg) Fault Refusal :=
  finish .ok { s with disp := Display.blank, dirty := true }.advance

/-- `DRW Vx,Vy,n` (R161): all operands and every sprite byte are read before anything is written. -/
def execDrw (x y : RegIdx) (n : Nibble) (s : State cfg) : Host.Outcome (State cfg) Fault Refusal :=
  finishOr s ((s.readSprite s.i n.toNat 0).map fun sprite =>
    (s.putCanvas (drawSprite (s.readV x) (s.readV y) sprite s.disp)).advance)

end Sys2Proof.Machine
end

