-- ==== Sys2Proof/Machine/Index.lean ====
section
/-!
DEFINITION. The index-register instructions (spec/43_index.md). Neither accesses memory nor writes VF.
-/

namespace Sys2Proof.Machine

variable {cfg : Params}

/-- `LD I,nnn` (R150): bits 15:12 of `I` become 0. -/
def execLdI (nnn : Addr12) (s : State cfg) : Host.Outcome (State cfg) Fault Refusal :=
  finish .ok (s.writeI (addrOperand nnn)).advance

/-- `ADD I,Vx` (R151): 16 bits are kept, no flag. -/
def execAddI (x : RegIdx) (s : State cfg) : Host.Outcome (State cfg) Fault Refusal :=
  finish .ok (s.writeI (indexSum s.i (s.readV x))).advance

end Sys2Proof.Machine
end

