-- ==== Sys2Proof/Machine/TimerKeypad.lean ====
section
/-!
DEFINITION. The timer and keypad instructions (spec/45_timer_keypad.md). The keypad and the timers are constant during a
step; the host changes them between steps (Sys2Proof/Machine/HostMoves.lean).
-/

namespace Sys2Proof.Machine

variable {cfg : Params}

/-- `SKP Vx` (R170, R176). -/
def execSkp (x : RegIdx) (s : State cfg) : Host.Outcome (State cfg) Fault Refusal :=
  finishOr s ((keyOperand (s.readV x)).map fun k => s.skipWhen (s.keyDown k))

/-- `SKNP Vx` (R171, R176). -/
def execSknp (x : RegIdx) (s : State cfg) : Host.Outcome (State cfg) Fault Refusal :=
  finishOr s ((keyOperand (s.readV x)).map fun k => s.skipWhen (!s.keyDown k))

/-- `LD Vx,DT` (R172). -/
def execLdVxDT (x : RegIdx) (s : State cfg) : Host.Outcome (State cfg) Fault Refusal :=
  finish .ok (s.writeV x s.dt).advance

/-- `LD Vx,K` (R173): one poll. With no key down nothing changes and the result is `Waiting`. -/
def execLdVxK (x : RegIdx) (s : State cfg) : Host.Outcome (State cfg) Fault Refusal :=
  match s.firstKey with
  | some k => finish .ok (s.writeV x (BitVec.ofNat 8 k.val)).advance
  | none => finish .waiting s

/-- `LD DT,Vx` (R174). -/
def execLdDTVx (x : RegIdx) (s : State cfg) : Host.Outcome (State cfg) Fault Refusal :=
  finish .ok (s.writeDT (s.readV x)).advance

/-- `LD ST,Vx` (R175). -/
def execLdSTVx (x : RegIdx) (s : State cfg) : Host.Outcome (State cfg) Fault Refusal :=
  finish .ok (s.writeST (s.readV x)).advance

end Sys2Proof.Machine
end

