-- ==== Sys2Proof/Machine/AnyConfig.lean ====
section
/-!
DEFINITION. Execution at any configuration (R5). `execAt` selects the same meanings as `exec` of Machine/Dispatch.lean,
which is the machine at the default configuration; Laws/Ops.lean proves the two equal there.
-/

namespace Sys2Proof.Machine

variable {cfg : Params}

/-- R91 step 4 on a core of any configuration: one arm per instruction, each one call of its meaning. -/
def execAt (i : Instr) (s : State cfg) : Host.Outcome (State cfg) Fault Refusal :=
  match i with
  | .cls => execCls s
  | .ret => execRet s
  | .nop0 nnn => execNop0 nnn s
  | .jp nnn => execJp nnn s
  | .call nnn => execCall nnn s
  | .seImm x kk => execSeImm x kk s
  | .sneImm x kk => execSneImm x kk s
  | .seReg x y => execSeReg x y s
  | .ldImm x kk => execLdImm x kk s
  | .addImm x kk => execAddImm x kk s
  | .ldReg x y => execLdReg x y s
  | .orReg x y => execOrReg x y s
  | .andReg x y => execAndReg x y s
  | .xorReg x y => execXorReg x y s
  | .addReg x y => execAddReg x y s
  | .subReg x y => execSubReg x y s
  | .shr x y => execShr x y s
  | .subnReg x y => execSubnReg x y s
  | .shl x y => execShl x y s
  | .sneReg x y => execSneReg x y s
  | .ldI nnn => execLdI nnn s
  | .jpV0 nnn => execJpV0 nnn s
  | .rnd x kk => execRnd x kk s
  | .drw x y n => execDrw x y n s
  | .skp x => execSkp x s
  | .sknp x => execSknp x s
  | .ldVxDT x => execLdVxDT x s
  | .ldVxK x => execLdVxK x s
  | .ldDTVx x => execLdDTVx x s
  | .ldSTVx x => execLdSTVx x s
  | .addI x => execAddI x s

end Sys2Proof.Machine
end

