-- ==== Sys2Proof/Machine/Step.lean ====
section
/-!
DEFINITION. One step of the core (spec/40_step_cycle.md R91), and where the host places the instruction a step fetches.
-/

namespace Sys2Proof.Machine

variable {cfg : Params}

/-- R91 over a given execute stage: a halted core repeats its fault; otherwise fetch, decode, execute. -/
def stepWith (execute : Instr → State cfg → Host.Outcome (State cfg) Fault Refusal) (s : State cfg) :
    Host.Outcome (State cfg) Fault Refusal :=
  match s.fault with
  | some f => haltedStep f s
  | none =>
    match s.fetchInstr with
    | .error f => raise f s
    | .ok i => execute i s

/-- `Step` (R91). The random byte of R38 is not an argument: `RND` draws it from the free value `Config.rnd`
(log entry 4). -/
def step (s : State) : Host.Outcome State Fault Refusal := stepWith exec s

/-- `Step` of a core of any configuration (R5, R91). -/
def stepAt (s : State cfg) : Host.Outcome (State cfg) Fault Refusal := stepWith execAt s

/-- The state with an instruction stored where the next step fetches it: the two bytes at `pc`, high byte first (R66).
It stands for the host's program load (log entry 20). -/
def State.withFetchWord (s : State) (nbits w : Nat) : State :=
  s.storeFetchWord (BitVec.ofNat 16 (w % 2 ^ nbits))

end Sys2Proof.Machine
end

