-- ==== Sys2Proof/Machine/HostMoves.lean ====
section
/-!
DEFINITION. The host's side of the interface (spec/10_state.md R35, R37; spec/60_exceptions.md R192, R193): what the
host may do between two steps, the closed list of its moves, and a run as a sequence of moves.
-/

namespace Sys2Proof.Machine

variable {cfg : Params}

/-! ## The operations of R37 -/

/-- Which timer a decrement names. -/
inductive Timer where
  | dt
  | st
deriving DecidableEq, Repr

/-- The one error of the host's `Load` (R59, R200); it is no fault of the core. -/
inductive LoadError where
  | loadTooLarge
deriving DecidableEq, Repr

/-- The largest program: `MEM_SIZE - PROG_START` bytes (R59). -/
def maxProgram (cfg : Params) : Nat := cfg.memSize - cfg.progStart

/-- `Load(bytes)` (R59): rejected before any state mutation when too large, else copied to `PROG_START` and up. -/
def State.load (s : State cfg) (bytes : List Byte) : Except LoadError (State cfg) :=
  if maxProgram cfg < bytes.length then .error .loadTooLarge else .ok (s.memWriteBytes cfg.progStart bytes)

/-- `KeySet(k, b)` (R37, R194). -/
def State.keySet (s : State cfg) (k : KeyIdx) (b : Bool) : State cfg := { s with key := s.key.set k b }

/-- A countdown that stops at 0 (R193, D24). -/
def countDown (t : Byte) : Byte := if t = 0 then 0 else t - 1

/-- `TimerDec(t)` (R193): the two timers are decremented independently. -/
def State.timerDec (s : State cfg) : Timer → State cfg
  | .dt => { s with dt := countDown s.dt }
  | .st => { s with st := countDown s.st }

/-- `DirtyClear` (R30, R37). -/
def State.dirtyClear (s : State cfg) : State cfg := { s with dirty := false }

/-- `ReadDisplay` (R166): the bitmap row-major, top row first, and the dirty flag. -/
def State.readDisplay (s : State cfg) : List Bool × Bool :=
  ((s.disp.toList.map fun row => row.toList).flatten, s.dirty)

/-- `ReadTimers` (R37). -/
def State.readTimers (s : State cfg) : Byte × Byte := (s.dt, s.st)

/-- The result of the last step, its fault part included (R35, R39). -/
def State.readResult (s : State cfg) : Option StepResult := s.lastResult

/-! ## The closed list of moves (R192) -/

/-- A state-changing move of the host; the reads of R192 change nothing. -/
inductive HostMove where
  | reset
  | load (bytes : List Byte)
  | keySet (k : KeyIdx) (b : Bool)
  | timerDec (t : Timer)
  | dirtyClear
deriving DecidableEq, Repr

/-- `Reset` (R210): every piece of state at its reset value, a latched fault included. The random source is outside the
core (R33, R38), so its draws go on: a reset does not make the same bytes come again (log entry 4). -/
def State.hostReset (s : State cfg) : State cfg := { State.resetAt cfg with draws := s.draws }

/-- What a host move does to the state; a rejected load does nothing (R200). Every move works on a halted core too
(R188, U18), and only `Reset` clears the latch (R189). -/
def hostMove (m : HostMove) (s : State cfg) : State cfg :=
  match m with
  | .reset => s.hostReset
  | .load bytes =>
    match s.load bytes with
    | .ok t => t
    | .error _ => s
  | .keySet k b => s.keySet k b
  | .timerDec t => s.timerDec t
  | .dirtyClear => s.dirtyClear

/-- A move of one of the two agents of R3: a step of the core, or a host move. -/
inductive Move where
  | core
  | host (m : HostMove)
deriving DecidableEq, Repr

/-- One move; at the default configuration the core's move is `step` (`stepAt_eq_step`). -/
def applyMove (m : Move) (s : State cfg) : Host.Outcome (State cfg) Fault Refusal :=
  match m with
  | .core => stepAt s
  | .host h => .next (hostMove h s)

/-- Where the host stands with the precondition of `Load` (R192, U17): after `Reset` and before the first `Step`, and
once. It is bookkeeping about the host, no state of the core (R33, R35). -/
inductive Phase where
  | fresh
  | loaded
  | running
deriving DecidableEq, Repr

/-- Is the move one the host has in this phase? Only `Load` has a precondition. -/
def admits (cfg : Params) (p : Phase) (m : Move) : Bool :=
  match m with
  | .host (.load bytes) => decide (p = .fresh) && decide (bytes.length ≤ maxProgram cfg)
  | .host .reset => true
  | .host (.keySet _ _) => true
  | .host (.timerDec _) => true
  | .host .dirtyClear => true
  | .core => true

/-- The phase after a move. -/
def phaseAfter (p : Phase) (m : Move) : Phase :=
  match m with
  | .host .reset => .fresh
  | .host (.load _) => .loaded
  | .host (.keySet _ _) => p
  | .host (.timerDec _) => p
  | .host .dirtyClear => p
  | .core => .running

/-- A run: any finite sequence of moves in any order (R97, R98). A load outside its precondition is not a move the host
has and is refused by name (U17). -/
def runMoves : Phase → List Move → State cfg → Host.Outcome (State cfg) Fault Refusal
  | _, [], s => .next s
  | p, m :: ms, s =>
    if admits cfg p m then
      match applyMove m s with
      | .next t => runMoves (phaseAfter p m) ms t
      | .fault f => .fault f
      | .refused r => .refused r
    else .refused .notAHostMove

end Sys2Proof.Machine
end

