-- ==== Sys2Proof/Safety.lean ====
section
/-!
DEFINITION. The terms claims are stated in: running, halted and parked states (spec/70_reset_and_hazards.md R216), what
a run from reset reaches, what an instruction leaves unchanged, and the invariant every move keeps.
-/

namespace Sys2Proof.Machine

variable {cfg : Params}

/-! ## How a run stands (R216) -/

/-- The core is not halted: the next step fetches (R91 step 0). -/
def Running (s : State cfg) : Prop := s.fault = none

/-- Quiescent, and no successful end (R216 (2)). -/
def Faulted (s : State cfg) : Prop := s.fault ≠ none

/-- `pc` addresses a `JP` to itself (R216 (1)). -/
def Parked (s : State cfg) : Prop :=
  Running s ∧ ∃ nnn : Addr12, s.fetchInstr = .ok (.jp nnn) ∧ nnn.toNat = s.pcAddr

/-- What some admitted sequence of core steps and host moves reaches from reset (R98, R192). -/
def Reachable (s : State cfg) : Prop := ∃ ms : List Move, runMoves .fresh ms (State.resetAt cfg) = .next s

/-! ## Frames -/

/-- Every byte of memory reads the same. -/
def SameMemory (s t : State cfg) : Prop := ∀ a : Nat, t.memRead a = s.memRead a

/-- `sp` and every stack slot are the same. -/
def SameStack (s t : State cfg) : Prop := t.sp = s.sp ∧ ∀ k : Fin cfg.stackDepth, t.stack[k] = s.stack[k]

/-- Both timers and every key are the same. -/
def SameTimersKeys (s t : State cfg) : Prop :=
  t.dt = s.dt ∧ t.st = s.st ∧ ∀ k : KeyIdx, t.keyDown k = s.keyDown k

/-- Every pixel and the dirty flag are the same. -/
def SameDisplay (s t : State cfg) : Prop :=
  (∀ (r : Fin cfg.dispH) (c : Fin cfg.dispW), Display.pixel t.disp r c = Display.pixel s.disp r c) ∧
    t.dirty = s.dirty

/-- Every V register but those in the list is the same. -/
def SameRegsBut (xs : List RegIdx) (s t : State cfg) : Prop := ∀ r : RegIdx, r ∉ xs → t.readV r = s.readV r

/-- Everything outside the V registers, `pc`, the step's result and the random draws is the same. -/
def SameOutsideV (s t : State cfg) : Prop :=
  t.i = s.i ∧ SameStack s t ∧ SameTimersKeys s t ∧ SameDisplay s t ∧ SameMemory s t ∧ t.fault = s.fault

/-- The address of the next instruction moved up by `k`, without a wrap (R222). -/
def PcAdvances (k : Nat) (s t : State cfg) : Prop := t.pcAddr = s.pcAddr + k

/-- The V registers an instruction writes: its destination, and VF where it defines a flag (R34). -/
def regsWritten : Instr → List RegIdx
  | .cls | .ret | .nop0 _ | .jp _ | .call _ | .jpV0 _ => []
  | .seImm _ _ | .sneImm _ _ | .seReg _ _ | .sneReg _ _ | .skp _ | .sknp _ => []
  | .ldI _ | .addI _ | .ldDTVx _ | .ldSTVx _ => []
  | .ldImm x _ | .addImm x _ | .rnd x _ => [x]
  | .ldReg x _ | .orReg x _ | .andReg x _ | .xorReg x _ => [x]
  | .ldVxDT x | .ldVxK x => [x]
  | .addReg x _ | .subReg x _ | .subnReg x _ | .shr x _ | .shl x _ => [x, flagReg]
  | .drw _ _ _ => [flagReg]

/-- The six instructions that define a flag effect (R21). -/
def definesFlag : Instr → Bool
  | .addReg _ _ | .subReg _ _ | .subnReg _ _ | .shr _ _ | .shl _ _ | .drw _ _ _ => true
  | .cls | .ret | .nop0 _ | .jp _ | .call _ | .jpV0 _ | .seImm _ _ | .sneImm _ _ | .seReg _ _ | .sneReg _ _ => false
  | .skp _ | .sknp _ | .ldI _ | .addI _ | .ldDTVx _ | .ldSTVx _ | .ldImm _ _ | .addImm _ _ | .rnd _ _ => false
  | .ldReg _ _ | .orReg _ _ | .andReg _ _ | .xorReg _ _ | .ldVxDT _ | .ldVxK _ => false

/-! ## The tables of R93, R94 and R180 -/

/-- R93's table: the new program counter, as an address, of an instruction that raises no fault. -/
def nextPc (s : State cfg) : Instr → Nat
  | .nop0 _ | .cls => s.pcAddr + 2
  | .ldImm _ _ | .addImm _ _ | .ldReg _ _ | .orReg _ _ | .andReg _ _ | .xorReg _ _ => s.pcAddr + 2
  | .addReg _ _ | .subReg _ _ | .subnReg _ _ | .shr _ _ | .shl _ _ | .rnd _ _ => s.pcAddr + 2
  | .ldI _ | .addI _ | .ldVxDT _ | .ldDTVx _ | .ldSTVx _ | .drw _ _ _ => s.pcAddr + 2
  | .ldVxK _ => if s.firstKey = none then s.pcAddr else s.pcAddr + 2
  | .jp nnn => nnn.toNat
  | .call nnn => nnn.toNat
  | .ret => s.stack[spBelow s.sp].toNat
  | .jpV0 nnn => nnn.toNat + (s.readV 0).toNat
  | .seImm x kk => if s.readV x = kk then s.pcAddr + 4 else s.pcAddr + 2
  | .sneImm x kk => if s.readV x ≠ kk then s.pcAddr + 4 else s.pcAddr + 2
  | .seReg x y => if s.readV x = s.readV y then s.pcAddr + 4 else s.pcAddr + 2
  | .sneReg x y => if s.readV x ≠ s.readV y then s.pcAddr + 4 else s.pcAddr + 2
  | .skp x => if ∃ k : KeyIdx, k.val = (s.readV x).toNat ∧ s.keyDown k = true then s.pcAddr + 4 else s.pcAddr + 2
  | .sknp x => if ∃ k : KeyIdx, k.val = (s.readV x).toNat ∧ s.keyDown k = true then s.pcAddr + 2 else s.pcAddr + 4

/-- R94's table: the result of an instruction that raises no fault. -/
def okResult (s : State cfg) : Instr → StepResult
  | .nop0 _ => .okNull
  | .ldVxK _ => if s.firstKey = none then .waiting else .ok
  | .cls | .ret | .jp _ | .call _ | .jpV0 _ | .seImm _ _ | .sneImm _ _ | .seReg _ _ | .sneReg _ _ => .ok
  | .skp _ | .sknp _ | .ldI _ | .addI _ | .ldDTVx _ | .ldSTVx _ | .ldImm _ _ | .addImm _ _ | .rnd _ _ => .ok
  | .ldReg _ _ | .orReg _ _ | .andReg _ _ | .xorReg _ _ | .ldVxDT _ => .ok
  | .addReg _ _ | .subReg _ _ | .subnReg _ _ | .shr _ _ | .shl _ _ | .drw _ _ _ => .ok

/-- When a step of a running core raises each fault (R180 to R187). -/
def FaultCause (s : State cfg) : Fault → Prop
  | .memoryOutOfBounds a =>
    (cfg.memSize ≤ s.pcAddr + 1 ∧ a = s.pcAddr + 1) ∨
      ∃ (x y : RegIdx) (n : Nibble) (r : Nat), s.fetchInstr = .ok (.drw x y n) ∧ r < n.toNat ∧ a = s.i.toNat + r ∧
        cfg.memSize ≤ a ∧ ∀ r' : Nat, r' < r → s.i.toNat + r' < cfg.memSize
  | .stackOverflow => ∃ nnn : Addr12, s.fetchInstr = .ok (.call nnn) ∧ s.sp.val = cfg.stackDepth - 1
  | .stackUnderflow => s.fetchInstr = .ok .ret ∧ s.sp.val = 0
  | .unimplementedOpcode w => s.fetchWord = .ok w ∧ decode w = .error (.unimplemented w)
  | .misalignedPc p => p = s.pc ∧ s.pcAddr % 2 = 1 ∧ s.pcAddr + 1 < cfg.memSize
  | .keyIndexOutOfRange b =>
    ∃ x : RegIdx, (s.fetchInstr = .ok (.skp x) ∨ s.fetchInstr = .ok (.sknp x)) ∧ b = s.readV x ∧ 15 < b.toNat

/-! ## Sprites (R161 to R163) -/

/-- Some 1 bit of the `n`-row sprite at `I` falls on the pixel: bit `7 - c` of byte `I + r` on the wrapped row
`V[y] + r` and column `V[x] + c`. -/
def SpriteCovers (s : State cfg) (x y : RegIdx) (n : Nibble) (row : Fin cfg.dispH) (col : Fin cfg.dispW) : Prop :=
  ∃ r c : Nat, r < n.toNat ∧ c < 8 ∧ (Memory.get cfg s.mem (s.i.toNat + r)).getLsbD (7 - c) = true ∧
    row.val = ((s.readV y).toNat + r) % cfg.dispH ∧ col.val = ((s.readV x).toNat + c) % cfg.dispW

/-! ## The invariant -/

/-- The greatest value `pc` takes (R24): a skip from the last fetch address, or the largest sum of `JP V0,nnn`. With the
default parameters it is 0x10FE. -/
def maxPc (cfg : Params) : Nat := max (cfg.memSize + 2) (0xFFF + 0xFF)

/-- What the record of a fault says of itself (R180 to R186). -/
def Fault.Justified (cfg : Params) : Fault → Prop
  | .memoryOutOfBounds a => cfg.memSize ≤ a
  | .stackOverflow => True
  | .stackUnderflow => True
  | .unimplementedOpcode w => decode w = .error (.unimplemented w)
  | .misalignedPc p => p.toNat % 2 = 1 ∧ p.toNat + 1 < cfg.memSize
  | .keyIndexOutOfRange v => 15 < v.toNat

/-- The invariant of CORE: what R24, R25, R26, R51, R58 and R110 say of every state a run can be in. -/
structure Inv (s : State cfg) : Prop where
  /-- Memory is in canonical form. -/
  mem_wf : Memory.wf cfg s.mem = true
  /-- The font table, and everything else below `PROG_START`, holds its reset contents (R51). -/
  low_mem : ∀ a : Nat, a < cfg.progStart → Memory.get cfg s.mem a = Memory.unlisted cfg a
  /-- The address of the next instruction is bounded (R24). -/
  pc_le : s.pcAddr ≤ maxPc cfg
  /-- Every return address held is even and was fetchable (R110). -/
  held : ∀ k : Fin cfg.stackDepth, k.val < s.sp.val →
    s.stack[k].toNat % 2 = 0 ∧ s.stack[k].toNat + 1 < cfg.memSize
  /-- The top slot is never written (R25). -/
  top_slot : ∀ k : Fin cfg.stackDepth, k.val = cfg.stackDepth - 1 → s.stack[k] = 0
  /-- A latched fault is one its rule allows. -/
  latch : ∀ f : Fault, s.fault = some f → f.Justified cfg

end Sys2Proof.Machine
end

