-- ==== Sys2Proof/Certificates/Slice0/Obligations.lean ====
section
/-!
DEFINITION. The statements for the provers, from the spec's numbered rules. They say nothing about a program.
Where a statement rests on a choice the spec marks as its own or on one of this model, its docstring says so.
-/

open Sys2Proof Sys2Proof.Machine

/-! ## Encoding -/

/-- Decoding the word of a well-formed instruction gives it back, whatever its operands (R75, R84; patterns D7). -/
def Obligations.DecodeOfEncode : Prop :=
  ∀ i : Instr, i.wellFormed = true →
    decode (encode i) = .ok i ∧ ∀ rest : List Byte, decodeBytes (encodeBytes i ++ rest) = .ok (i, rest)

/-- A word that decodes is the encoding of what it decodes to, and that is well formed: no two instructions share a
word (R81). -/
def Obligations.EncodeOfDecode : Prop :=
  ∀ (w : Word) (i : Instr), decode w = .ok i → i.wellFormed = true ∧ encode i = w

/-- The illegal words of R78, and only they, are not instructions. -/
def Obligations.UnimplementedWords : Prop :=
  ∀ w : Word, decode w = .error (.unimplemented w) ↔
    (w.toNat / 4096 = 0x5 ∧ w.toNat % 16 ≠ 0) ∨ (w.toNat / 4096 = 0x9 ∧ w.toNat % 16 ≠ 0) ∨
      (w.toNat / 4096 = 0x8 ∧ w.toNat % 16 ∈ [0x8, 0x9, 0xA, 0xB, 0xC, 0xD, 0xF]) ∨
      (w.toNat / 4096 = 0xE ∧ w.toNat % 256 ∉ [0x9E, 0xA1]) ∨
      (w.toNat / 4096 = 0xF ∧ w.toNat % 256 ∉ [0x07, 0x0A, 0x15, 0x18, 0x1E])

/-- R75's selection: the row of the instruction a word decodes to is a row of the map, the word matches it, and any other
row it matches has the smaller mask; a word some row matches decodes. -/
def Obligations.DecodeFollowsOpcodeMap : Prop :=
  (∀ (w : Word) (i : Instr), decode w = .ok i →
    i.row ∈ opcodeMap ∧ i.row.matches w = true ∧
      ∀ r ∈ opcodeMap, r.matches w = true → r = i.row ∨ r.mask.toNat < i.row.mask.toNat) ∧
  (∀ w : Word, (∃ r ∈ opcodeMap, r.matches w = true) → ∃ i, decode w = .ok i)

/-- Words written out from the encodings of R75, one or more per format and family. -/
def Obligations.SampleWordsDecode : Prop :=
  decode 0x00E0 = .ok .cls ∧ decode 0x00EE = .ok .ret ∧ decode 0x0123 = .ok (.nop0 0x123) ∧
    decode 0x1ABC = .ok (.jp 0xABC) ∧ decode 0x2300 = .ok (.call 0x300) ∧ decode 0x3A42 = .ok (.seImm 10 0x42) ∧
    decode 0x6205 = .ok (.ldImm 2 0x05) ∧ decode 0x7210 = .ok (.addImm 2 0x10) ∧
    decode 0x8AB4 = .ok (.addReg 10 11) ∧ decode 0x8ABE = .ok (.shl 10 11) ∧ decode 0xA2F0 = .ok (.ldI 0x2F0) ∧
    decode 0xD012 = .ok (.drw 0 1 2) ∧ decode 0xE59E = .ok (.skp 5) ∧ decode 0xF70A = .ok (.ldVxK 7) ∧
    decode 0xFA1E = .ok (.addI 10) ∧ decode 0x4B17 = .ok (.sneImm 11 0x17) ∧ decode 0x5AB0 = .ok (.seReg 10 11) ∧
    decode 0x9CD0 = .ok (.sneReg 12 13) ∧ decode 0xB123 = .ok (.jpV0 0x123) ∧ decode 0xC30F = .ok (.rnd 3 0x0F)

/-- Every family-0 word but the two exact ones is the null action (R77). -/
def Obligations.FamilyZeroIsNullAction : Prop :=
  ∀ w : Word, w.toNat < 0x1000 → w ≠ 0x00E0 → w ≠ 0x00EE →
    ∃ nnn : Addr12, decode w = .ok (.nop0 nnn) ∧ nnn.toNat = w.toNat

/-! ## Memory -/

/-- The fetch (R54, R55, R66), whatever the parameters: bounds before alignment, then two bytes, high byte first. The
fault of an odd `pc`, the order of the checks and the reported address are the spec's decisions D12, D13, D15. -/
def Obligations.FetchBigEndian : Prop :=
  ∀ (cfg : Params) (s : State cfg),
    if cfg.memSize ≤ s.pcAddr + 1 then s.fetchWord = .error (.memoryOutOfBounds (s.pcAddr + 1))
    else if s.pcAddr % 2 = 1 then s.fetchWord = .error (.misalignedPc s.pc)
    else ∃ (w : Word) (hi lo : Byte), s.fetchWord = .ok w ∧ s.memRead s.pcAddr = .ok hi ∧
      s.memRead (s.pcAddr + 1) = .ok lo ∧ w.toNat = hi.toNat * 256 + lo.toNat

/-- The byte read never wraps: an address that does not exist faults with that address (R50, R53). -/
def Obligations.ByteReadChecksBounds : Prop :=
  ∀ (cfg : Params) (s : State cfg) (a : Nat),
    if cfg.memSize ≤ a then s.memRead a = .error (.memoryOutOfBounds a) else ∃ b : Byte, s.memRead a = .ok b

/-- A write of a byte that exists reads back, leaves every other address alone and keeps the canonical form (the form is
the model's, log entry 19). -/
def Obligations.MemoryReadAfterWrite : Prop :=
  ∀ (cfg : Params) (s : State cfg) (a : Nat) (b : Byte), Memory.wf cfg s.mem = true → a < cfg.memSize →
    Memory.wf cfg (s.memWrite a b).mem = true ∧ (s.memWrite a b).memRead a = .ok b ∧
      ∀ c : Nat, c ≠ a → (s.memWrite a b).memRead c = s.memRead c

/-- Two canonical memories that read the same everywhere are the same data (the model's representation, log entry 19). -/
def Obligations.MemoryFormIsCanonical : Prop :=
  ∀ (cfg : Params) (m m' : Memory), Memory.wf cfg m = true → Memory.wf cfg m' = true →
    (∀ a : Nat, a < cfg.memSize → Memory.get cfg m a = Memory.get cfg m' a) → m = m'

/-- No instruction writes memory; a step does not, and no run without a reset or a load does (R58, R62). -/
def Obligations.NothingWritesMemory : Prop :=
  (∀ (i : Instr) (s t : State), exec i s = .next t → t.mem = s.mem) ∧
    (∀ s t : State, step s = .next t → t.mem = s.mem) ∧
    (∀ (p : Phase) (ms : List Move) (s t : State), .host .reset ∉ ms → (∀ bs : List Byte, .host (.load bs) ∉ ms) →
      runMoves p ms s = .next t → t.mem = s.mem)

/-- Program load (R59, R200), whatever the parameters: more than `MEM_SIZE - PROG_START` bytes are rejected and change
nothing; else the bytes stand from `PROG_START` up, in order, and nothing else changed. -/
def Obligations.LoadCopiesProgram : Prop :=
  ∀ (cfg : Params) (s : State cfg) (bs : List Byte), Memory.wf cfg s.mem = true →
    (cfg.memSize < cfg.progStart + bs.length → s.load bs = .error .loadTooLarge ∧ hostMove (.load bs) s = s) ∧
      (cfg.progStart + bs.length ≤ cfg.memSize → ∃ t : State cfg, s.load bs = .ok t ∧ t = { s with mem := t.mem } ∧
        Memory.wf cfg t.mem = true ∧
        (∀ (k : Nat) (h : k < bs.length), t.memRead (cfg.progStart + k) = .ok bs[k]) ∧
        ∀ a : Nat, a < cfg.progStart ∨ cfg.progStart + bs.length ≤ a → t.memRead a = s.memRead a)

/-! ## Reset and the invariant -/

/-- What reset leaves (R36): the font bytes are the spec's default (D5), the flags and pixels read as false by D25. And a
reset leaves just this, whatever the state was before (R210): only the count of random draws, which stands for a source
outside the core, goes on (log entry 4). -/
def Obligations.ResetState : Prop :=
  (∀ r : RegIdx, State.reset.readV r = 0) ∧ State.reset.i = 0 ∧ State.reset.pc.toNat = 0x200 ∧ State.reset.pcAddr = 0x200 ∧
    State.reset.sp.val = 0 ∧ (∀ k : Fin 16, State.reset.stack[k] = 0) ∧ State.reset.dt = 0 ∧ State.reset.st = 0 ∧
    (∀ k : KeyIdx, State.reset.keyDown k = false) ∧
    (∀ (r : Fin 32) (c : Fin 64), Display.pixel State.reset.disp r c = false) ∧ State.reset.dirty = false ∧
    (∀ a : Nat, a < 80 → State.reset.memRead a = .ok (Config.defaultFont.getD a 0)) ∧
    (∀ a : Nat, 80 ≤ a → a < 4096 → State.reset.memRead a = .ok 0) ∧ State.reset.fault = none ∧
    ∀ s : State, hostMove .reset s = { State.reset with draws := s.draws }

/-- The parameters of R5. Every configuration satisfies R6, with 80 font bytes; any values that do can be set; and the
host's machine is the one at the spec's defaults (D1 to D5, log entries 1 and 2), where execution and the step of any
configuration are the host's `exec` and `step`. -/
def Obligations.ParametersConsistent : Prop :=
  (∀ cfg : Params, Config.fontBase + Config.fontLen ≤ cfg.progStart ∧ cfg.progStart % 2 = 0 ∧
    cfg.progStart + 2 ≤ cfg.memSize ∧ cfg.memSize ≤ 65536 ∧ 8 ≤ cfg.dispW ∧ 15 ≤ cfg.dispH ∧ 2 ≤ cfg.stackDepth ∧
    cfg.font.length = Config.fontLen) ∧
  (∀ (mem prog depth w h : Nat) (font : List Byte), Config.fontBase + Config.fontLen ≤ prog → prog % 2 = 0 →
    prog + 2 ≤ mem → mem ≤ 65536 → 8 ≤ w → 15 ≤ h → 2 ≤ depth → font.length = Config.fontLen →
    ∃ cfg : Params, cfg.memSize = mem ∧ cfg.progStart = prog ∧ cfg.stackDepth = depth ∧ cfg.dispW = w ∧
      cfg.dispH = h ∧ cfg.font = font) ∧
  (Config.params.memSize = 4096 ∧ Config.params.progStart = 0x200 ∧ Config.params.stackDepth = 16 ∧
    Config.params.dispW = 64 ∧ Config.params.dispH = 32 ∧ Config.params.font = Config.defaultFont) ∧
  State.reset = State.resetAt Config.params ∧ (∀ (i : Instr) (s : State), execAt i s = exec i s) ∧
    ∀ s : State, stepAt s = step s

/-- The invariant holds at reset, whatever the parameters. -/
def Obligations.ResetMeetsInvariant : Prop := Inv State.reset ∧ ∀ cfg : Params, Inv (State.resetAt cfg)

/-- Every step from a state that meets the invariant gives one that meets it (R24, R25, R26, R51, R58, R110, R180). -/
def Obligations.StepKeepsInvariant : Prop := ∀ s t : State, Inv s → step s = .next t → Inv t

/-- So does every host move (R192), whatever the parameters. -/
def Obligations.HostMoveKeepsInvariant : Prop :=
  ∀ (cfg : Params) (m : HostMove) (s : State cfg), Inv s → Inv (hostMove m s)

/-- Whatever the host does between steps, every state a run reaches from reset meets the invariant (R98). -/
def Obligations.ReachableStatesMeetInvariant : Prop := ∀ s : State, Reachable s → Inv s

/-! ## The step -/

/-- A running core runs the instruction the bytes at `pc` decode to: the step is exactly its meaning (R91, R92). -/
def Obligations.StepRunsDecodedInstruction : Prop :=
  ∀ (s : State) (hi lo : Byte) (i : Instr) (rest : List Byte), Running s → s.pcAddr % 2 = 0 →
    s.memRead s.pcAddr = .ok hi → s.memRead (s.pcAddr + 1) = .ok lo → decodeBytes (hi :: lo :: rest) = .ok (i, rest) →
    step s = exec i s

/-- A step always answers a next state: nothing is refused and nothing stops outside the fault latch (R99; the form is
the model's, log entry 5). -/
def Obligations.StepAnswersAState : Prop :=
  (∀ s : State, ∃ t : State, step s = .next t) ∧ ∀ (i : Instr) (s : State), ∃ t : State, exec i s = .next t

/-- A halted core changes nothing and returns the same record, whatever the memory holds (R31, R188; the latch is the
spec's decision D14, `lastResult` the model's field, log entry 3). -/
def Obligations.HaltedCoreRepeatsFault : Prop :=
  ∀ (s : State) (f : Fault), s.fault = some f → step s = .next { s with lastResult := some (.err f) }

/-- Only the host's reset clears the latch (R189). -/
def Obligations.OnlyResetClearsFault : Prop :=
  ∀ (m : Move) (s t : State) (f : Fault), s.fault = some f → applyMove m s = .next t →
    (m = .host .reset ∧ t.fault = none) ∨ (m ≠ .host .reset ∧ t.fault = some f)

/-- Faults are precise: a step that raises one changes the latch and the reported result alone (R96, R188). -/
def Obligations.FaultsArePrecise : Prop :=
  ∀ (s t : State) (f : Fault), Running s → step s = .next t → t.fault = some f →
    t = { s with fault := some f, lastResult := some (.err f) }

/-- Exactly when a step of a running core raises each of the six faults, and in which order of priority (R180 to R187;
kinds 5 and 6 and the priorities are the spec's decisions D12, D13, D21). -/
def Obligations.FaultsHaveTheirCauses : Prop :=
  ∀ (s : State) (f : Fault), Running s → ((∃ t : State, step s = .next t ∧ t.fault = some f) ↔ FaultCause s f)

/-- Every instruction gives the program counter the value of R93's table, with no wrap (R222; what 16 bits cannot hold
stands beside `pc`, log entry 18). -/
def Obligations.PcFollowsDisciplines : Prop :=
  ∀ (i : Instr) (s t : State), Running s → exec i s = .next t → Running t → t.pcAddr = nextPc s i

/-- The result of every step (R94; the values are the spec's decision D28, the field the model's, log entry 3). -/
def Obligations.StepReportsResult : Prop :=
  ∀ (i : Instr) (s t : State), Running s → s.fetchInstr = .ok i → step s = .next t →
    (t.fault = none ∧ t.lastResult = some (okResult s i)) ∨
      ∃ f : Fault, t.fault = some f ∧ t.lastResult = some (.err f)

/-- What each instruction leaves unchanged: the write columns of R34, for all 31 rows at once. -/
def Obligations.InstructionFrames : Prop :=
  ∀ (i : Instr) (s t : State), exec i s = .next t →
    SameRegsBut (regsWritten i) s t ∧ SameMemory s t ∧ (∀ k : KeyIdx, t.keyDown k = s.keyDown k) ∧
      ((∀ nnn : Addr12, i ≠ .ldI nnn) → (∀ x : RegIdx, i ≠ .addI x) → t.i = s.i) ∧
      ((∀ nnn : Addr12, i ≠ .call nnn) → ∀ k : Fin 16, t.stack[k] = s.stack[k]) ∧
      ((∀ nnn : Addr12, i ≠ .call nnn) → i ≠ .ret → t.sp = s.sp) ∧
      (∀ nnn : Addr12, i = .call nnn → ∀ k : Fin 16, k ≠ s.sp → t.stack[k] = s.stack[k]) ∧
      ((∀ x : RegIdx, i ≠ .ldDTVx x) → t.dt = s.dt) ∧ ((∀ x : RegIdx, i ≠ .ldSTVx x) → t.st = s.st) ∧
      (i ≠ .cls → (∀ (x y : RegIdx) (n : Nibble), i ≠ .drw x y n) → SameDisplay s t) ∧
      ((∀ (x : RegIdx) (kk : Byte), i ≠ .rnd x kk) → t.draws = s.draws)

/-- Every instruction that defines no flag leaves VF alone, unless VF is its destination (R144). -/
def Obligations.OthersLeaveFlagAlone : Prop :=
  ∀ (i : Instr) (s t : State), exec i s = .next t → definesFlag i = false → flagReg ∉ regsWritten i →
    t.readV flagReg = s.readV flagReg

/-- The six flag instructions leave VF 0 or 1, never anything else (R21). -/
def Obligations.FlagIsZeroOrOne : Prop :=
  ∀ (i : Instr) (s t : State), Running s → exec i s = .next t → Running t → definesFlag i = true →
    t.readV flagReg = 0 ∨ t.readV flagReg = 1

/-! ## Control flow -/

/-- The null action: `pc` moves by 2, nothing else changes, and it is no fault (R95; the advance is D9). -/
def Obligations.NullAction : Prop :=
  ∀ (nnn : Addr12) (s : State), ∃ t : State, exec (.nop0 nnn) s = .next t ∧ PcAdvances 2 s t ∧
    t.lastResult = some .okNull ∧ SameRegsBut [] s t ∧ SameOutsideV s t

/-- `JP nnn` and `JP V0,nnn`: the target is the operand, or its unmasked sum with V0; nothing else changes (R111, R117;
no masking of the sum is D18). -/
def Obligations.JumpsSetPc : Prop :=
  ∀ (nnn : Addr12) (s : State),
    (∃ t : State, exec (.jp nnn) s = .next t ∧ t.pcAddr = nnn.toNat ∧ SameRegsBut [] s t ∧ SameOutsideV s t) ∧
      ∃ t : State, exec (.jpV0 nnn) s = .next t ∧ t.pcAddr = nnn.toNat + (s.readV 0).toNat ∧
        SameRegsBut [] s t ∧ SameOutsideV s t

/-- `CALL nnn`: below the limit it pushes its own address and jumps; at the limit it faults and changes nothing else
(R112, R182, R220; push order D10, what is pushed D11, depth C8). -/
def Obligations.CallPushesOwnAddress : Prop :=
  ∀ (nnn : Addr12) (s : State),
    (s.sp.val < 15 → ∃ t : State, exec (.call nnn) s = .next t ∧ t.pcAddr = nnn.toNat ∧ t.sp.val = s.sp.val + 1 ∧
      t.stack[s.sp] = s.pc ∧ (∀ k : Fin 16, k ≠ s.sp → t.stack[k] = s.stack[k]) ∧ SameRegsBut [] s t ∧ t.i = s.i ∧
      SameTimersKeys s t ∧ SameDisplay s t ∧ SameMemory s t ∧ t.fault = s.fault) ∧
      (s.sp.val = 15 → exec (.call nnn) s =
        .next { s with fault := some .stackOverflow, lastResult := some (.err .stackOverflow) })

/-- `RET`: pops into `pc`, adds nothing and does not clear the slot; with nothing held it faults (R110, R183). -/
def Obligations.ReturnPopsIntoPc : Prop :=
  ∀ s : State,
    (∀ k : Fin 16, s.sp.val = k.val + 1 → ∃ t : State, exec .ret s = .next t ∧ t.pcAddr = s.stack[k].toNat ∧ t.sp = k ∧
      (∀ j : Fin 16, t.stack[j] = s.stack[j]) ∧ SameRegsBut [] s t ∧ t.i = s.i ∧ SameTimersKeys s t ∧
      SameDisplay s t ∧ SameMemory s t ∧ t.fault = s.fault) ∧
      (s.sp.val = 0 → exec .ret s =
        .next { s with fault := some .stackUnderflow, lastResult := some (.err .stackUnderflow) })

/-- The call/return law: `CALL` and then at once `RET` restore `pc` and `sp`; the only other change is the slot
`stack[sp]`, which holds the address of the `CALL` (R118). `lastResult` is the output of the second step. -/
def Obligations.CallThenReturn : Prop :=
  ∀ (s : State) (nnn : Addr12), Running s → s.fetchInstr = .ok (.call nnn) → s.sp.val < 15 →
    ({ s with pc := addrOperand nnn } : State).fetchWord = .ok 0x00EE →
    ∃ t u : State, step s = .next t ∧ step t = .next u ∧
      u = { s with stack := s.stack.set s.sp s.pc, lastResult := some .ok }

/-- The immediate skips: 4 on the condition, else 2; nothing else changes (R113, R114). -/
def Obligations.ImmediateSkips : Prop :=
  ∀ (x : RegIdx) (kk : Byte) (s : State),
    (∃ t : State, exec (.seImm x kk) s = .next t ∧
      (if (s.readV x).toNat = kk.toNat then PcAdvances 4 s t else PcAdvances 2 s t) ∧ SameRegsBut [] s t ∧
        SameOutsideV s t) ∧
      ∃ t : State, exec (.sneImm x kk) s = .next t ∧
        (if (s.readV x).toNat = kk.toNat then PcAdvances 2 s t else PcAdvances 4 s t) ∧ SameRegsBut [] s t ∧
          SameOutsideV s t

/-- The register skips: 4 on the condition, else 2; nothing else changes (R115, R116). -/
def Obligations.RegisterSkips : Prop :=
  ∀ (x y : RegIdx) (s : State),
    (∃ t : State, exec (.seReg x y) s = .next t ∧
      (if (s.readV x).toNat = (s.readV y).toNat then PcAdvances 4 s t else PcAdvances 2 s t) ∧ SameRegsBut [] s t ∧
        SameOutsideV s t) ∧
      ∃ t : State, exec (.sneReg x y) s = .next t ∧
        (if (s.readV x).toNat = (s.readV y).toNat then PcAdvances 2 s t else PcAdvances 4 s t) ∧ SameRegsBut [] s t ∧
          SameOutsideV s t

/-- Running off the end does not wrap, whatever the parameters: once the program counter lands at or beyond `MEM_SIZE - 1`
without a fault, the next step raises `MemoryOutOfBounds`, and a sequential instruction or a skip at `MEM_SIZE - 2` lands
at `MEM_SIZE` or `MEM_SIZE + 2` (R222, R120, R212). At the defaults `stepAt` is the host's `step`. -/
def Obligations.RunningOffTheEndFaults : Prop :=
  (∀ s : State, stepAt s = step s) ∧
  ∀ (cfg : Params) (s t : State cfg) (i : Instr), Running s → s.fetchInstr = .ok i → stepAt s = .next t → Running t →
    (cfg.memSize ≤ t.pcAddr + 1 → stepAt t = .next { t with
      fault := some (.memoryOutOfBounds (t.pcAddr + 1)), lastResult := some (.err (.memoryOutOfBounds (t.pcAddr + 1))) }) ∧
      (s.pcAddr + 2 = cfg.memSize → nextPc s i = s.pcAddr + 2 → t.pcAddr = cfg.memSize) ∧
      (s.pcAddr + 2 = cfg.memSize → nextPc s i = s.pcAddr + 4 → t.pcAddr = cfg.memSize + 2)

/-- A parked core stays: a step changes nothing but the reported result, and the state is parked again (R216 (1); the
notion is the spec's decision D29). -/
def Obligations.ParkedCoreStays : Prop :=
  ∀ s : State, Parked s → step s = .next { s with lastResult := some .ok } ∧
    Parked { s with lastResult := some .ok }

/-! ## Arithmetic and logic -/

/-- `LD Vx,kk` (R130): every form, its encoding 6xkk included; nothing but `V[x]` and `pc` changes, and no fault. -/
def Obligations.LoadImmediate : Prop :=
  ∀ (x : RegIdx) (kk : Byte) (s : State),
    decode (BitVec.ofNat 16 (0x6000 + x.val * 256 + kk.toNat)) = .ok (.ldImm x kk) ∧
      ∃ t : State, exec (.ldImm x kk) s = .next t ∧ t.readV x = kk ∧ SameRegsBut [x] s t ∧ PcAdvances 2 s t ∧
        SameOutsideV s t

/-- `ADD Vx,kk` (R131): the sum modulo 256, VF not written unless it is the destination; its encoding 7xkk included. -/
def Obligations.AddImmediate : Prop :=
  ∀ (x : RegIdx) (kk : Byte) (s : State),
    decode (BitVec.ofNat 16 (0x7000 + x.val * 256 + kk.toNat)) = .ok (.addImm x kk) ∧
      ∃ t : State, exec (.addImm x kk) s = .next t ∧ (t.readV x).toNat = ((s.readV x).toNat + kk.toNat) % 256 ∧
        SameRegsBut [x] s t ∧ PcAdvances 2 s t ∧ SameOutsideV s t

/-- Move, OR, AND, XOR (R132 to R135): bit by bit into `V[x]`; VF and everything else unchanged. -/
def Obligations.MoveAndBitwise : Prop :=
  ∀ (x y : RegIdx) (s : State),
    (∃ t : State, exec (.ldReg x y) s = .next t ∧ t.readV x = s.readV y ∧ SameRegsBut [x] s t ∧ PcAdvances 2 s t ∧
      SameOutsideV s t) ∧
    (∃ t : State, exec (.orReg x y) s = .next t ∧
      (∀ b : Nat, (t.readV x).getLsbD b = ((s.readV x).getLsbD b || (s.readV y).getLsbD b)) ∧ SameRegsBut [x] s t ∧
      PcAdvances 2 s t ∧ SameOutsideV s t) ∧
    (∃ t : State, exec (.andReg x y) s = .next t ∧
      (∀ b : Nat, (t.readV x).getLsbD b = ((s.readV x).getLsbD b && (s.readV y).getLsbD b)) ∧ SameRegsBut [x] s t ∧
      PcAdvances 2 s t ∧ SameOutsideV s t) ∧
    ∃ t : State, exec (.xorReg x y) s = .next t ∧
      (∀ b : Nat, (t.readV x).getLsbD b = Bool.xor ((s.readV x).getLsbD b) ((s.readV y).getLsbD b)) ∧
      SameRegsBut [x] s t ∧ PcAdvances 2 s t ∧ SameOutsideV s t

/-- `ADD Vx,Vy` (R136): the sum modulo 256 and the carry, the carry written last (R143, D16). -/
def Obligations.AddSetsCarry : Prop :=
  ∀ (x y : RegIdx) (s : State), ∃ t : State, exec (.addReg x y) s = .next t ∧
    (t.readV flagReg).toNat = (if 255 < (s.readV x).toNat + (s.readV y).toNat then 1 else 0) ∧
    (x ≠ flagReg → (t.readV x).toNat = ((s.readV x).toNat + (s.readV y).toNat) % 256) ∧
    SameRegsBut [x, flagReg] s t ∧ PcAdvances 2 s t ∧ SameOutsideV s t

/-- `SUB Vx,Vy` and `SUBN Vx,Vy` (R137, R138): the difference modulo 256 into `V[x]` and "no borrow", written last
(R143, D16). -/
def Obligations.SubtractsSetNoBorrow : Prop :=
  ∀ (x y : RegIdx) (s : State),
    (∃ t : State, exec (.subReg x y) s = .next t ∧
      (t.readV flagReg).toNat = (if (s.readV y).toNat ≤ (s.readV x).toNat then 1 else 0) ∧
      (x ≠ flagReg → (t.readV x).toNat = ((s.readV x).toNat + 256 - (s.readV y).toNat) % 256) ∧
      SameRegsBut [x, flagReg] s t ∧ PcAdvances 2 s t ∧ SameOutsideV s t) ∧
    ∃ t : State, exec (.subnReg x y) s = .next t ∧
      (t.readV flagReg).toNat = (if (s.readV x).toNat ≤ (s.readV y).toNat then 1 else 0) ∧
      (x ≠ flagReg → (t.readV x).toNat = ((s.readV y).toNat + 256 - (s.readV x).toNat) % 256) ∧
      SameRegsBut [x, flagReg] s t ∧ PcAdvances 2 s t ∧ SameOutsideV s t

/-- `SHR Vx` and `SHL Vx` (R139, R140): `V[x]` shifted by one, VF the bit shifted out, whatever `y` is (R79, D32; flag
last, D16). -/
def Obligations.ShiftsByOne : Prop :=
  ∀ (x y : RegIdx) (s : State),
    (∃ t : State, exec (.shr x y) s = .next t ∧ (t.readV flagReg).toNat = (s.readV x).toNat % 2 ∧
      (x ≠ flagReg → (t.readV x).toNat = (s.readV x).toNat / 2) ∧ SameRegsBut [x, flagReg] s t ∧ PcAdvances 2 s t ∧
      SameOutsideV s t) ∧
    ∃ t : State, exec (.shl x y) s = .next t ∧ (t.readV flagReg).toNat = (s.readV x).toNat / 128 ∧
      (x ≠ flagReg → (t.readV x).toNat = (s.readV x).toNat * 2 % 256) ∧ SameRegsBut [x, flagReg] s t ∧
      PcAdvances 2 s t ∧ SameOutsideV s t

/-- `RND Vx,kk` (R141): some byte masked with `kk`, whatever byte the source gives: the free value of this draw (D23, log
entry 4), and the draw is counted. Nothing else changes. -/
def Obligations.RandomIsMasked : Prop :=
  ∀ (x : RegIdx) (kk : Byte) (s : State), ∃ t : State, exec (.rnd x kk) s = .next t ∧
    (∀ b : Nat, (t.readV x).getLsbD b = ((Config.rnd s.draws).getLsbD b && kk.getLsbD b)) ∧ t.draws = s.draws + 1 ∧
    SameRegsBut [x] s t ∧ PcAdvances 2 s t ∧ SameOutsideV s t

/-- The random byte matters only to `RND`: for any other instruction the draw counter makes no difference (R99). -/
def Obligations.DrawMattersOnlyToRnd : Prop :=
  ∀ (s t : State) (d : Nat), (∀ (x : RegIdx) (kk : Byte), s.fetchInstr ≠ .ok (.rnd x kk)) → step s = .next t →
    step { s with draws := d } = .next { t with draws := d }

/-! ## Index register -/

/-- `LD I,nnn` (R150): exactly the operand, bits 15:12 of `I` zero; its encoding Annn included. -/
def Obligations.SetIndex : Prop :=
  ∀ (nnn : Addr12) (s : State),
    decode (BitVec.ofNat 16 (0xA000 + nnn.toNat)) = .ok (.ldI nnn) ∧
      ∃ t : State, exec (.ldI nnn) s = .next t ∧ t.i.toNat = nnn.toNat ∧ SameRegsBut [] s t ∧ PcAdvances 2 s t ∧
        SameStack s t ∧ SameTimersKeys s t ∧ SameDisplay s t ∧ SameMemory s t ∧ t.fault = s.fault

/-- `ADD I,Vx` (R151): the sum modulo 65536, no flag, no masking to 12 bits (D17). -/
def Obligations.AddToIndex : Prop :=
  ∀ (x : RegIdx) (s : State), ∃ t : State, exec (.addI x) s = .next t ∧
    t.i.toNat = (s.i.toNat + (s.readV x).toNat) % 65536 ∧ SameRegsBut [] s t ∧ PcAdvances 2 s t ∧ SameStack s t ∧
    SameTimersKeys s t ∧ SameDisplay s t ∧ SameMemory s t ∧ t.fault = s.fault

/-! ## Display -/

/-- `CLS` (R160): every pixel false, `dirty` set whatever it was. -/
def Obligations.ClearScreen : Prop :=
  ∀ s : State, ∃ t : State, exec .cls s = .next t ∧
    (∀ (r : Fin 32) (c : Fin 64), Display.pixel t.disp r c = false) ∧ t.dirty = true ∧ SameRegsBut [] s t ∧
    PcAdvances 2 s t ∧ t.i = s.i ∧ SameStack s t ∧ SameTimersKeys s t ∧ SameMemory s t ∧ t.fault = s.fault

/-- `DRW` when every row it reads exists (`n = 0` reads none): exactly the covered pixels are inverted, VF is 1 iff some
pixel went from set to unset, `dirty` is set iff some pixel changed and never cleared, and nothing else but `pc` changes
(R161 to R165; bit and row order D19, all rows checked first D20). -/
def Obligations.DrawInvertsSprite : Prop :=
  ∀ (x y : RegIdx) (n : Nibble) (s : State), n = 0 ∨ s.i.toNat + n.toNat ≤ 4096 →
    ∃ t : State, exec (.drw x y n) s = .next t ∧
      (∀ (r : Fin 32) (c : Fin 64), (SpriteCovers s x y n r c → Display.pixel t.disp r c = !Display.pixel s.disp r c) ∧
        (¬ SpriteCovers s x y n r c → Display.pixel t.disp r c = Display.pixel s.disp r c)) ∧
      ((∃ (r : Fin 32) (c : Fin 64), Display.pixel s.disp r c = true ∧ Display.pixel t.disp r c = false) →
        t.readV flagReg = 1) ∧
      ((¬ ∃ (r : Fin 32) (c : Fin 64), Display.pixel s.disp r c = true ∧ Display.pixel t.disp r c = false) →
        t.readV flagReg = 0) ∧
      (t.dirty = true ↔ s.dirty = true ∨ ∃ (r : Fin 32) (c : Fin 64), Display.pixel t.disp r c ≠ Display.pixel s.disp r c) ∧
      SameRegsBut [flagReg] s t ∧ PcAdvances 2 s t ∧ t.i = s.i ∧ SameStack s t ∧ SameTimersKeys s t ∧ SameMemory s t ∧
      t.fault = s.fault

/-- `DRW` past the end of memory faults with the lowest bad address and draws nothing (R161, R181; D20). -/
def Obligations.DrawPastMemoryFaults : Prop :=
  ∀ (x y : RegIdx) (n : Nibble) (s : State) (r : Nat), r < n.toNat → 4096 ≤ s.i.toNat + r →
    (∀ r' : Nat, r' < r → s.i.toNat + r' < 4096) →
    exec (.drw x y n) s = .next { s with fault := some (.memoryOutOfBounds (s.i.toNat + r)), lastResult := some (.err (.memoryOutOfBounds (s.i.toNat + r))) }

/-- Drawing a sprite twice at the same place restores every pixel; where the first draw found only unset pixels, the
second reports a collision iff the sprite has a 1 bit (R161; the source's scenario S8, for every sprite and place). With
VF as a coordinate the two draws are at different places, so `x` and `y` are other registers. -/
def Obligations.DrawTwiceRestores : Prop :=
  ∀ (x y : RegIdx) (n : Nibble) (s t u : State), x ≠ flagReg → y ≠ flagReg → Running s → exec (.drw x y n) s = .next t →
    Running t → exec (.drw x y n) t = .next u →
    u.disp = s.disp ∧
      ((∀ (r : Fin 32) (c : Fin 64), SpriteCovers s x y n r c → Display.pixel s.disp r c = false) →
        (u.readV flagReg = 1 ↔ ∃ (r : Fin 32) (c : Fin 64), SpriteCovers s x y n r c))

/-- The display export is row-major, top row first, and carries the dirty flag (R166, D27). -/
def Obligations.ReadDisplayIsRowMajor : Prop :=
  ∀ (s : State) (r : Fin 32) (c : Fin 64),
    s.readDisplay.1[r.val * 64 + c.val]? = some (Display.pixel s.disp r c) ∧ s.readDisplay.1.length = 2048 ∧
      s.readDisplay.2 = s.dirty

/-! ## Timers and keypad -/

/-- `SKP` and `SKNP` (R170, R171): 4 or 2 by the key's flag; a key number above 15 faults and changes nothing else
(R176, the spec's decision D21). -/
def Obligations.KeySkips : Prop :=
  ∀ (x : RegIdx) (s : State),
    (∀ k : KeyIdx, (s.readV x).toNat = k.val →
      (∃ t : State, exec (.skp x) s = .next t ∧
        (if s.keyDown k = true then PcAdvances 4 s t else PcAdvances 2 s t) ∧ SameRegsBut [] s t ∧ SameOutsideV s t) ∧
      ∃ t : State, exec (.sknp x) s = .next t ∧
        (if s.keyDown k = true then PcAdvances 2 s t else PcAdvances 4 s t) ∧ SameRegsBut [] s t ∧ SameOutsideV s t) ∧
    (15 < (s.readV x).toNat →
      exec (.skp x) s = .next { s with fault := some (.keyIndexOutOfRange (s.readV x)), lastResult := some (.err (.keyIndexOutOfRange (s.readV x))) } ∧
      exec (.sknp x) s = .next { s with fault := some (.keyIndexOutOfRange (s.readV x)), lastResult := some (.err (.keyIndexOutOfRange (s.readV x))) })

/-- `LD Vx,K` (R173): with a key down, the smallest pressed index into `V[x]` (D22); with none, nothing changes but the
reported `Waiting`. -/
def Obligations.KeyWaitPolls : Prop :=
  ∀ (x : RegIdx) (s : State),
    (∀ k : KeyIdx, s.keyDown k = true → (∀ j : KeyIdx, j < k → s.keyDown j = false) →
      ∃ t : State, exec (.ldVxK x) s = .next t ∧ (t.readV x).toNat = k.val ∧ SameRegsBut [x] s t ∧ PcAdvances 2 s t ∧
        SameOutsideV s t ∧ t.lastResult = some .ok) ∧
    ((∀ k : KeyIdx, s.keyDown k = false) → exec (.ldVxK x) s = .next { s with lastResult := some .waiting })

/-- The timer instructions (R172, R174, R175): `LD Vx,DT` reads `dt`, the other two write one timer each. -/
def Obligations.TimerInstructions : Prop :=
  ∀ (x : RegIdx) (s : State),
    (∃ t : State, exec (.ldVxDT x) s = .next t ∧ t.readV x = s.dt ∧ SameRegsBut [x] s t ∧ PcAdvances 2 s t ∧
      SameOutsideV s t) ∧
    (∃ t : State, exec (.ldDTVx x) s = .next t ∧ t.dt = s.readV x ∧ t.st = s.st ∧ SameRegsBut [] s t ∧ PcAdvances 2 s t ∧
      t.i = s.i ∧ SameStack s t ∧ (∀ k : KeyIdx, t.keyDown k = s.keyDown k) ∧ SameDisplay s t ∧ SameMemory s t ∧
      t.fault = s.fault) ∧
    ∃ t : State, exec (.ldSTVx x) s = .next t ∧ t.st = s.readV x ∧ t.dt = s.dt ∧ SameRegsBut [] s t ∧ PcAdvances 2 s t ∧
      t.i = s.i ∧ SameStack s t ∧ (∀ k : KeyIdx, t.keyDown k = s.keyDown k) ∧ SameDisplay s t ∧ SameMemory s t ∧
      t.fault = s.fault

/-- What a program may rely on about the delay timer: no move but a reset or an executed `LD DT,Vx` raises it (R177;
the stop at 0 is D24). -/
def Obligations.DelayTimerNeverRises : Prop :=
  ∀ (m : Move) (s t : State), applyMove m s = .next t → m ≠ .host .reset →
    (m = .core → Running s → ∀ x : RegIdx, s.fetchInstr ≠ .ok (.ldDTVx x)) → t.dt.toNat ≤ s.dt.toNat

/-! ## The host, and what no instruction reads -/

/-- What the host cannot do, and what its small moves do (R35, R37, R192 to R194): outside a reset no move of it touches
V, `I`, `pc`, `sp`, the stack, the display or the latch, sets `dirty`, or writes memory below `PROG_START`. A key set
reads as set; a timer decrement takes one from the timer it names and stops at 0 (D24); `DirtyClear` clears `dirty`. -/
def Obligations.HostMovesAreLimited : Prop :=
  (∀ (s : State), (∀ (k : KeyIdx) (b : Bool), (hostMove (.keySet k b) s).keyDown k = b) ∧
    (hostMove (.timerDec .dt) s).dt.toNat = s.dt.toNat - 1 ∧ (hostMove (.timerDec .st) s).st.toNat = s.st.toNat - 1 ∧
    (hostMove .dirtyClear s).dirty = false) ∧
  ∀ (m : HostMove) (s : State), m ≠ .reset → Memory.wf Config.params s.mem = true →
    SameRegsBut [] s (hostMove m s) ∧ (hostMove m s).i = s.i ∧ (hostMove m s).pc = s.pc ∧ (hostMove m s).pcHigh = s.pcHigh ∧ SameStack s (hostMove m s) ∧
      (hostMove m s).disp = s.disp ∧ (hostMove m s).fault = s.fault ∧
      ((hostMove m s).dirty = s.dirty ∨ (m = .dirtyClear ∧ (hostMove m s).dirty = false)) ∧
      (∀ a : Nat, a < 0x200 → (hostMove m s).memRead a = s.memRead a) ∧
      ((∀ bs : List Byte, m ≠ .load bs) → (hostMove m s).mem = s.mem) ∧
      (∀ k : KeyIdx, (hostMove m s).keyDown k = s.keyDown k ∨ ∃ b : Bool, m = .keySet k b ∧ (hostMove m s).keyDown k = b) ∧
      ((hostMove m s).dt = s.dt ∨ (m = .timerDec .dt ∧ (hostMove m s).dt.toNat = s.dt.toNat - 1)) ∧
      ((hostMove m s).st = s.st ∨ (m = .timerDec .st ∧ (hostMove m s).st.toNat = s.st.toNat - 1))

/-- No instruction reads `st` or `dirty` (R27, R30), and none reads the last result: changing them changes nothing else
in the next state. -/
def Obligations.SoundTimerAndDirtyUnread : Prop :=
  ∀ (s t : State) (b : Byte) (d : Bool) (r : Option StepResult), step s = .next t →
    ∃ u : State, step { s with st := b, dirty := d, lastResult := r } = .next u ∧
      u = { t with st := u.st, dirty := u.dirty }

/-- No instruction reads a stack slot at or above `sp` (U16): changing those slots changes nothing else. -/
def Obligations.FreeStackSlotsUnread : Prop :=
  ∀ (s t : State) (slots : Vector Word 16), (∀ k : Fin 16, k.val < s.sp.val → slots[k] = s.stack[k]) → step s = .next t →
    ∃ u : State, step { s with stack := slots } = .next u ∧ u = { t with stack := u.stack } ∧
      ∀ k : Fin 16, k.val < t.sp.val → u.stack[k] = t.stack[k]
end

