-- ==== Sys2Proof/Laws/Decode.lean ====
section
/-!
SUPPORT. The fields of a word as numbers, and the fields of a packed word: what proofs about decode and encode cite.
-/

namespace Sys2Proof

/-! ## Fields of a word -/

theorem Word.op_eq (w : Word) : w.op = w.toNat / 4096 := by
  have := w.isLt
  simp only [Word.op, BitVec.extractLsb'_toNat, Nat.shiftRight_eq_div_pow]
  omega

theorem Word.x_val (w : Word) : w.x.val = w.toNat / 256 % 16 := by
  simp [Word.x, Nat.shiftRight_eq_div_pow]

theorem Word.y_val (w : Word) : w.y.val = w.toNat / 16 % 16 := by
  simp [Word.y, Nat.shiftRight_eq_div_pow]

theorem Word.n_toNat (w : Word) : w.n.toNat = w.toNat % 16 := by simp [Word.n]

theorem Word.kk_toNat (w : Word) : w.kk.toNat = w.toNat % 256 := by simp [Word.kk]

theorem Word.nnn_toNat (w : Word) : w.nnn.toNat = w.toNat % 4096 := by simp [Word.nnn]

theorem Word.op_lt (w : Word) : w.op < 16 := by
  have := w.isLt
  rw [Word.op_eq]; omega

/-! ## Packed words -/

theorem packNNN_toNat {op : Nat} (h : op < 16) (nnn : Addr12) :
    (packNNN op nnn).toNat = op * 4096 + nnn.toNat := by
  have := nnn.isLt
  simp only [packNNN, BitVec.toNat_ofNat]
  omega

theorem packXKK_toNat {op : Nat} (h : op < 16) (x : RegIdx) (kk : Byte) :
    (packXKK op x kk).toNat = op * 4096 + x.val * 256 + kk.toNat := by
  have := kk.isLt
  have := x.isLt
  simp only [packXKK, BitVec.toNat_ofNat]
  omega

theorem packXYN_toNat {op : Nat} (h : op < 16) (x y : RegIdx) (n : Nibble) :
    (packXYN op x y n).toNat = op * 4096 + x.val * 256 + y.val * 16 + n.toNat := by
  have := n.isLt
  have := x.isLt
  have := y.isLt
  simp only [packXYN, BitVec.toNat_ofNat]
  omega

theorem packNNN_op {op : Nat} (h : op < 16) (nnn : Addr12) : (packNNN op nnn).op = op := by
  have := nnn.isLt
  rw [Word.op_eq, packNNN_toNat h]; omega

theorem packNNN_nnn {op : Nat} (h : op < 16) (nnn : Addr12) : (packNNN op nnn).nnn = nnn := by
  have := nnn.isLt
  apply BitVec.eq_of_toNat_eq
  rw [Word.nnn_toNat, packNNN_toNat h]; omega

theorem packXKK_op {op : Nat} (h : op < 16) (x : RegIdx) (kk : Byte) : (packXKK op x kk).op = op := by
  have := kk.isLt
  have := x.isLt
  rw [Word.op_eq, packXKK_toNat h]; omega

theorem packXKK_x {op : Nat} (h : op < 16) (x : RegIdx) (kk : Byte) : (packXKK op x kk).x = x := by
  have := kk.isLt
  have := x.isLt
  apply Fin.ext
  rw [Word.x_val, packXKK_toNat h]; omega

theorem packXKK_kk {op : Nat} (h : op < 16) (x : RegIdx) (kk : Byte) : (packXKK op x kk).kk = kk := by
  have := kk.isLt
  have := x.isLt
  apply BitVec.eq_of_toNat_eq
  rw [Word.kk_toNat, packXKK_toNat h]; omega

theorem packXYN_op {op : Nat} (h : op < 16) (x y : RegIdx) (n : Nibble) : (packXYN op x y n).op = op := by
  have := n.isLt
  have := x.isLt
  have := y.isLt
  rw [Word.op_eq, packXYN_toNat h]; omega

theorem packXYN_x {op : Nat} (h : op < 16) (x y : RegIdx) (n : Nibble) : (packXYN op x y n).x = x := by
  have := n.isLt
  have := x.isLt
  have := y.isLt
  apply Fin.ext
  rw [Word.x_val, packXYN_toNat h]; omega

theorem packXYN_y {op : Nat} (h : op < 16) (x y : RegIdx) (n : Nibble) : (packXYN op x y n).y = y := by
  have := n.isLt
  have := x.isLt
  have := y.isLt
  apply Fin.ext
  rw [Word.y_val, packXYN_toNat h]; omega

theorem packXYN_n {op : Nat} (h : op < 16) (x y : RegIdx) (n : Nibble) : (packXYN op x y n).n = n := by
  have := n.isLt
  have := x.isLt
  have := y.isLt
  apply BitVec.eq_of_toNat_eq
  rw [Word.n_toNat, packXYN_toNat h]; omega

/-! ## A word is the packing of its own fields -/

theorem packNNN_self (w : Word) : packNNN w.op w.nnn = w := by
  apply BitVec.eq_of_toNat_eq
  rw [packNNN_toNat w.op_lt, Word.op_eq, Word.nnn_toNat]; omega

theorem packXKK_self (w : Word) : packXKK w.op w.x w.kk = w := by
  apply BitVec.eq_of_toNat_eq
  rw [packXKK_toNat w.op_lt, Word.op_eq, Word.x_val, Word.kk_toNat]; omega

theorem packXYN_self (w : Word) : packXYN w.op w.x w.y w.n = w := by
  apply BitVec.eq_of_toNat_eq
  rw [packXYN_toNat w.op_lt, Word.op_eq, Word.x_val, Word.y_val, Word.n_toNat]; omega

/-- The sixteen families. -/
theorem Word.op_cases (w : Word) :
    (w.op = 0 ∨ w.op = 1 ∨ w.op = 2 ∨ w.op = 3) ∨ (w.op = 4 ∨ w.op = 5 ∨ w.op = 6 ∨ w.op = 7) ∨
      (w.op = 8 ∨ w.op = 9 ∨ w.op = 10 ∨ w.op = 11) ∨ w.op = 12 ∨ w.op = 13 ∨ w.op = 14 ∨ w.op = 15 := by
  have := w.op_lt
  omega

/-! ## Words and their bytes -/

theorem wordOfBytes_toNat (hi lo : Byte) : (wordOfBytes hi lo).toNat = hi.toNat * 256 + lo.toNat := by
  have := hi.isLt
  have := lo.isLt
  simp only [wordOfBytes, BitVec.toNat_ofNat]
  omega

/-- A word laid out high byte first reads back (R66). -/
theorem wordOfBytes_bytes (w : Word) : wordOfBytes w.hiByte w.loByte = w := by
  have := w.isLt
  apply BitVec.eq_of_toNat_eq
  rw [wordOfBytes_toNat]
  simp only [Word.hiByte, Word.loByte, BitVec.extractLsb'_toNat, Nat.shiftRight_eq_div_pow]
  omega

end Sys2Proof
end

