-- ==== Sys2Proof/Laws/State.lean ====
section
/-!
SUPPORT. The small lemmas of the state: for every update, what each field holds after it. Each is true by `rfl`, so that
no later proof unfolds a record update.
-/

namespace Sys2Proof.Machine

variable {cfg : Params}

/-! ## The defaults of R5 -/

theorem params_memSize : Config.params.memSize = 4096 := rfl
theorem params_progStart : Config.params.progStart = 0x200 := rfl
theorem params_stackDepth : Config.params.stackDepth = 16 := rfl
theorem params_dispW : Config.params.dispW = 64 := rfl
theorem params_dispH : Config.params.dispH = 32 := rfl
theorem params_font : Config.params.font = Config.defaultFont := rfl

/-! ## writeV -/

@[simp] theorem State.writeV_v (s : State cfg) (x : RegIdx) (b : Byte) : (s.writeV x b).v = s.v.set x b := rfl
@[simp] theorem State.writeV_i (s : State cfg) (x : RegIdx) (b : Byte) : (s.writeV x b).i = s.i := rfl
@[simp] theorem State.writeV_pc (s : State cfg) (x : RegIdx) (b : Byte) : (s.writeV x b).pc = s.pc := rfl
@[simp] theorem State.writeV_pcHigh (s : State cfg) (x : RegIdx) (b : Byte) : (s.writeV x b).pcHigh = s.pcHigh := rfl
@[simp] theorem State.writeV_sp (s : State cfg) (x : RegIdx) (b : Byte) : (s.writeV x b).sp = s.sp := rfl
@[simp] theorem State.writeV_stack (s : State cfg) (x : RegIdx) (b : Byte) : (s.writeV x b).stack = s.stack := rfl
@[simp] theorem State.writeV_dt (s : State cfg) (x : RegIdx) (b : Byte) : (s.writeV x b).dt = s.dt := rfl
@[simp] theorem State.writeV_st (s : State cfg) (x : RegIdx) (b : Byte) : (s.writeV x b).st = s.st := rfl
@[simp] theorem State.writeV_key (s : State cfg) (x : RegIdx) (b : Byte) : (s.writeV x b).key = s.key := rfl
@[simp] theorem State.writeV_disp (s : State cfg) (x : RegIdx) (b : Byte) : (s.writeV x b).disp = s.disp := rfl
@[simp] theorem State.writeV_dirty (s : State cfg) (x : RegIdx) (b : Byte) : (s.writeV x b).dirty = s.dirty := rfl
@[simp] theorem State.writeV_mem (s : State cfg) (x : RegIdx) (b : Byte) : (s.writeV x b).mem = s.mem := rfl
@[simp] theorem State.writeV_fault (s : State cfg) (x : RegIdx) (b : Byte) : (s.writeV x b).fault = s.fault := rfl
@[simp] theorem State.writeV_lastResult (s : State cfg) (x : RegIdx) (b : Byte) : (s.writeV x b).lastResult = s.lastResult := rfl
@[simp] theorem State.writeV_draws (s : State cfg) (x : RegIdx) (b : Byte) : (s.writeV x b).draws = s.draws := rfl

/-! ## writeFlag -/

@[simp] theorem State.writeFlag_v (s : State cfg) (f : Bool) : (s.writeFlag f).v = s.v.set flagReg (flagByte f) := rfl
@[simp] theorem State.writeFlag_i (s : State cfg) (f : Bool) : (s.writeFlag f).i = s.i := rfl
@[simp] theorem State.writeFlag_pc (s : State cfg) (f : Bool) : (s.writeFlag f).pc = s.pc := rfl
@[simp] theorem State.writeFlag_pcHigh (s : State cfg) (f : Bool) : (s.writeFlag f).pcHigh = s.pcHigh := rfl
@[simp] theorem State.writeFlag_sp (s : State cfg) (f : Bool) : (s.writeFlag f).sp = s.sp := rfl
@[simp] theorem State.writeFlag_stack (s : State cfg) (f : Bool) : (s.writeFlag f).stack = s.stack := rfl
@[simp] theorem State.writeFlag_dt (s : State cfg) (f : Bool) : (s.writeFlag f).dt = s.dt := rfl
@[simp] theorem State.writeFlag_st (s : State cfg) (f : Bool) : (s.writeFlag f).st = s.st := rfl
@[simp] theorem State.writeFlag_key (s : State cfg) (f : Bool) : (s.writeFlag f).key = s.key := rfl
@[simp] theorem State.writeFlag_disp (s : State cfg) (f : Bool) : (s.writeFlag f).disp = s.disp := rfl
@[simp] theorem State.writeFlag_dirty (s : State cfg) (f : Bool) : (s.writeFlag f).dirty = s.dirty := rfl
@[simp] theorem State.writeFlag_mem (s : State cfg) (f : Bool) : (s.writeFlag f).mem = s.mem := rfl
@[simp] theorem State.writeFlag_fault (s : State cfg) (f : Bool) : (s.writeFlag f).fault = s.fault := rfl
@[simp] theorem State.writeFlag_lastResult (s : State cfg) (f : Bool) : (s.writeFlag f).lastResult = s.lastResult := rfl
@[simp] theorem State.writeFlag_draws (s : State cfg) (f : Bool) : (s.writeFlag f).draws = s.draws := rfl

/-! ## writeResultFlag -/

@[simp] theorem State.writeResultFlag_v (s : State cfg) (x : RegIdx) (b : Byte) (f : Bool) : (s.writeResultFlag x b f).v = (s.v.set x b).set flagReg (flagByte f) := rfl
@[simp] theorem State.writeResultFlag_i (s : State cfg) (x : RegIdx) (b : Byte) (f : Bool) : (s.writeResultFlag x b f).i = s.i := rfl
@[simp] theorem State.writeResultFlag_pc (s : State cfg) (x : RegIdx) (b : Byte) (f : Bool) : (s.writeResultFlag x b f).pc = s.pc := rfl
@[simp] theorem State.writeResultFlag_pcHigh (s : State cfg) (x : RegIdx) (b : Byte) (f : Bool) : (s.writeResultFlag x b f).pcHigh = s.pcHigh := rfl
@[simp] theorem State.writeResultFlag_sp (s : State cfg) (x : RegIdx) (b : Byte) (f : Bool) : (s.writeResultFlag x b f).sp = s.sp := rfl
@[simp] theorem State.writeResultFlag_stack (s : State cfg) (x : RegIdx) (b : Byte) (f : Bool) : (s.writeResultFlag x b f).stack = s.stack := rfl
@[simp] theorem State.writeResultFlag_dt (s : State cfg) (x : RegIdx) (b : Byte) (f : Bool) : (s.writeResultFlag x b f).dt = s.dt := rfl
@[simp] theorem State.writeResultFlag_st (s : State cfg) (x : RegIdx) (b : Byte) (f : Bool) : (s.writeResultFlag x b f).st = s.st := rfl
@[simp] theorem State.writeResultFlag_key (s : State cfg) (x : RegIdx) (b : Byte) (f : Bool) : (s.writeResultFlag x b f).key = s.key := rfl
@[simp] theorem State.writeResultFlag_disp (s : State cfg) (x : RegIdx) (b : Byte) (f : Bool) : (s.writeResultFlag x b f).disp = s.disp := rfl
@[simp] theorem State.writeResultFlag_dirty (s : State cfg) (x : RegIdx) (b : Byte) (f : Bool) : (s.writeResultFlag x b f).dirty = s.dirty := rfl
@[simp] theorem State.writeResultFlag_mem (s : State cfg) (x : RegIdx) (b : Byte) (f : Bool) : (s.writeResultFlag x b f).mem = s.mem := rfl
@[simp] theorem State.writeResultFlag_fault (s : State cfg) (x : RegIdx) (b : Byte) (f : Bool) : (s.writeResultFlag x b f).fault = s.fault := rfl
@[simp] theorem State.writeResultFlag_lastResult (s : State cfg) (x : RegIdx) (b : Byte) (f : Bool) : (s.writeResultFlag x b f).lastResult = s.lastResult := rfl
@[simp] theorem State.writeResultFlag_draws (s : State cfg) (x : RegIdx) (b : Byte) (f : Bool) : (s.writeResultFlag x b f).draws = s.draws := rfl

/-! ## writeI -/

@[simp] theorem State.writeI_v (s : State cfg) (w : Word) : (s.writeI w).v = s.v := rfl
@[simp] theorem State.writeI_i (s : State cfg) (w : Word) : (s.writeI w).i = w := rfl
@[simp] theorem State.writeI_pc (s : State cfg) (w : Word) : (s.writeI w).pc = s.pc := rfl
@[simp] theorem State.writeI_pcHigh (s : State cfg) (w : Word) : (s.writeI w).pcHigh = s.pcHigh := rfl
@[simp] theorem State.writeI_sp (s : State cfg) (w : Word) : (s.writeI w).sp = s.sp := rfl
@[simp] theorem State.writeI_stack (s : State cfg) (w : Word) : (s.writeI w).stack = s.stack := rfl
@[simp] theorem State.writeI_dt (s : State cfg) (w : Word) : (s.writeI w).dt = s.dt := rfl
@[simp] theorem State.writeI_st (s : State cfg) (w : Word) : (s.writeI w).st = s.st := rfl
@[simp] theorem State.writeI_key (s : State cfg) (w : Word) : (s.writeI w).key = s.key := rfl
@[simp] theorem State.writeI_disp (s : State cfg) (w : Word) : (s.writeI w).disp = s.disp := rfl
@[simp] theorem State.writeI_dirty (s : State cfg) (w : Word) : (s.writeI w).dirty = s.dirty := rfl
@[simp] theorem State.writeI_mem (s : State cfg) (w : Word) : (s.writeI w).mem = s.mem := rfl
@[simp] theorem State.writeI_fault (s : State cfg) (w : Word) : (s.writeI w).fault = s.fault := rfl
@[simp] theorem State.writeI_lastResult (s : State cfg) (w : Word) : (s.writeI w).lastResult = s.lastResult := rfl
@[simp] theorem State.writeI_draws (s : State cfg) (w : Word) : (s.writeI w).draws = s.draws := rfl

/-! ## writeDT -/

@[simp] theorem State.writeDT_v (s : State cfg) (b : Byte) : (s.writeDT b).v = s.v := rfl
@[simp] theorem State.writeDT_i (s : State cfg) (b : Byte) : (s.writeDT b).i = s.i := rfl
@[simp] theorem State.writeDT_pc (s : State cfg) (b : Byte) : (s.writeDT b).pc = s.pc := rfl
@[simp] theorem State.writeDT_pcHigh (s : State cfg) (b : Byte) : (s.writeDT b).pcHigh = s.pcHigh := rfl
@[simp] theorem State.writeDT_sp (s : State cfg) (b : Byte) : (s.writeDT b).sp = s.sp := rfl
@[simp] theorem State.writeDT_stack (s : State cfg) (b : Byte) : (s.writeDT b).stack = s.stack := rfl
@[simp] theorem State.writeDT_dt (s : State cfg) (b : Byte) : (s.writeDT b).dt = b := rfl
@[simp] theorem State.writeDT_st (s : State cfg) (b : Byte) : (s.writeDT b).st = s.st := rfl
@[simp] theorem State.writeDT_key (s : State cfg) (b : Byte) : (s.writeDT b).key = s.key := rfl
@[simp] theorem State.writeDT_disp (s : State cfg) (b : Byte) : (s.writeDT b).disp = s.disp := rfl
@[simp] theorem State.writeDT_dirty (s : State cfg) (b : Byte) : (s.writeDT b).dirty = s.dirty := rfl
@[simp] theorem State.writeDT_mem (s : State cfg) (b : Byte) : (s.writeDT b).mem = s.mem := rfl
@[simp] theorem State.writeDT_fault (s : State cfg) (b : Byte) : (s.writeDT b).fault = s.fault := rfl
@[simp] theorem State.writeDT_lastResult (s : State cfg) (b : Byte) : (s.writeDT b).lastResult = s.lastResult := rfl
@[simp] theorem State.writeDT_draws (s : State cfg) (b : Byte) : (s.writeDT b).draws = s.draws := rfl

/-! ## writeST -/

@[simp] theorem State.writeST_v (s : State cfg) (b : Byte) : (s.writeST b).v = s.v := rfl
@[simp] theorem State.writeST_i (s : State cfg) (b : Byte) : (s.writeST b).i = s.i := rfl
@[simp] theorem State.writeST_pc (s : State cfg) (b : Byte) : (s.writeST b).pc = s.pc := rfl
@[simp] theorem State.writeST_pcHigh (s : State cfg) (b : Byte) : (s.writeST b).pcHigh = s.pcHigh := rfl
@[simp] theorem State.writeST_sp (s : State cfg) (b : Byte) : (s.writeST b).sp = s.sp := rfl
@[simp] theorem State.writeST_stack (s : State cfg) (b : Byte) : (s.writeST b).stack = s.stack := rfl
@[simp] theorem State.writeST_dt (s : State cfg) (b : Byte) : (s.writeST b).dt = s.dt := rfl
@[simp] theorem State.writeST_st (s : State cfg) (b : Byte) : (s.writeST b).st = b := rfl
@[simp] theorem State.writeST_key (s : State cfg) (b : Byte) : (s.writeST b).key = s.key := rfl
@[simp] theorem State.writeST_disp (s : State cfg) (b : Byte) : (s.writeST b).disp = s.disp := rfl
@[simp] theorem State.writeST_dirty (s : State cfg) (b : Byte) : (s.writeST b).dirty = s.dirty := rfl
@[simp] theorem State.writeST_mem (s : State cfg) (b : Byte) : (s.writeST b).mem = s.mem := rfl
@[simp] theorem State.writeST_fault (s : State cfg) (b : Byte) : (s.writeST b).fault = s.fault := rfl
@[simp] theorem State.writeST_lastResult (s : State cfg) (b : Byte) : (s.writeST b).lastResult = s.lastResult := rfl
@[simp] theorem State.writeST_draws (s : State cfg) (b : Byte) : (s.writeST b).draws = s.draws := rfl

/-! ## advance -/

@[simp] theorem State.advance_v (s : State cfg) : (s.advance).v = s.v := rfl
@[simp] theorem State.advance_i (s : State cfg) : (s.advance).i = s.i := rfl
@[simp] theorem State.advance_pc (s : State cfg) : (s.advance).pc = BitVec.ofNat 16 (s.pcAddr + 2) := rfl
@[simp] theorem State.advance_pcHigh (s : State cfg) : (s.advance).pcHigh = (s.pcAddr + 2) / 65536 := rfl
@[simp] theorem State.advance_sp (s : State cfg) : (s.advance).sp = s.sp := rfl
@[simp] theorem State.advance_stack (s : State cfg) : (s.advance).stack = s.stack := rfl
@[simp] theorem State.advance_dt (s : State cfg) : (s.advance).dt = s.dt := rfl
@[simp] theorem State.advance_st (s : State cfg) : (s.advance).st = s.st := rfl
@[simp] theorem State.advance_key (s : State cfg) : (s.advance).key = s.key := rfl
@[simp] theorem State.advance_disp (s : State cfg) : (s.advance).disp = s.disp := rfl
@[simp] theorem State.advance_dirty (s : State cfg) : (s.advance).dirty = s.dirty := rfl
@[simp] theorem State.advance_mem (s : State cfg) : (s.advance).mem = s.mem := rfl
@[simp] theorem State.advance_fault (s : State cfg) : (s.advance).fault = s.fault := rfl
@[simp] theorem State.advance_lastResult (s : State cfg) : (s.advance).lastResult = s.lastResult := rfl
@[simp] theorem State.advance_draws (s : State cfg) : (s.advance).draws = s.draws := rfl

/-! ## skipWhen -/

@[simp] theorem State.skipWhen_v (s : State cfg) (c : Bool) : (s.skipWhen c).v = s.v := rfl
@[simp] theorem State.skipWhen_i (s : State cfg) (c : Bool) : (s.skipWhen c).i = s.i := rfl
@[simp] theorem State.skipWhen_pc (s : State cfg) (c : Bool) : (s.skipWhen c).pc = BitVec.ofNat 16 (if c then s.pcAddr + 4 else s.pcAddr + 2) := rfl
@[simp] theorem State.skipWhen_pcHigh (s : State cfg) (c : Bool) : (s.skipWhen c).pcHigh = (if c then s.pcAddr + 4 else s.pcAddr + 2) / 65536 := rfl
@[simp] theorem State.skipWhen_sp (s : State cfg) (c : Bool) : (s.skipWhen c).sp = s.sp := rfl
@[simp] theorem State.skipWhen_stack (s : State cfg) (c : Bool) : (s.skipWhen c).stack = s.stack := rfl
@[simp] theorem State.skipWhen_dt (s : State cfg) (c : Bool) : (s.skipWhen c).dt = s.dt := rfl
@[simp] theorem State.skipWhen_st (s : State cfg) (c : Bool) : (s.skipWhen c).st = s.st := rfl
@[simp] theorem State.skipWhen_key (s : State cfg) (c : Bool) : (s.skipWhen c).key = s.key := rfl
@[simp] theorem State.skipWhen_disp (s : State cfg) (c : Bool) : (s.skipWhen c).disp = s.disp := rfl
@[simp] theorem State.skipWhen_dirty (s : State cfg) (c : Bool) : (s.skipWhen c).dirty = s.dirty := rfl
@[simp] theorem State.skipWhen_mem (s : State cfg) (c : Bool) : (s.skipWhen c).mem = s.mem := rfl
@[simp] theorem State.skipWhen_fault (s : State cfg) (c : Bool) : (s.skipWhen c).fault = s.fault := rfl
@[simp] theorem State.skipWhen_lastResult (s : State cfg) (c : Bool) : (s.skipWhen c).lastResult = s.lastResult := rfl
@[simp] theorem State.skipWhen_draws (s : State cfg) (c : Bool) : (s.skipWhen c).draws = s.draws := rfl

/-! ## jump -/

@[simp] theorem State.jump_v (s : State cfg) (w : Word) : (s.jump w).v = s.v := rfl
@[simp] theorem State.jump_i (s : State cfg) (w : Word) : (s.jump w).i = s.i := rfl
@[simp] theorem State.jump_pc (s : State cfg) (w : Word) : (s.jump w).pc = w := rfl
@[simp] theorem State.jump_pcHigh (s : State cfg) (w : Word) : (s.jump w).pcHigh = 0 := rfl
@[simp] theorem State.jump_sp (s : State cfg) (w : Word) : (s.jump w).sp = s.sp := rfl
@[simp] theorem State.jump_stack (s : State cfg) (w : Word) : (s.jump w).stack = s.stack := rfl
@[simp] theorem State.jump_dt (s : State cfg) (w : Word) : (s.jump w).dt = s.dt := rfl
@[simp] theorem State.jump_st (s : State cfg) (w : Word) : (s.jump w).st = s.st := rfl
@[simp] theorem State.jump_key (s : State cfg) (w : Word) : (s.jump w).key = s.key := rfl
@[simp] theorem State.jump_disp (s : State cfg) (w : Word) : (s.jump w).disp = s.disp := rfl
@[simp] theorem State.jump_dirty (s : State cfg) (w : Word) : (s.jump w).dirty = s.dirty := rfl
@[simp] theorem State.jump_mem (s : State cfg) (w : Word) : (s.jump w).mem = s.mem := rfl
@[simp] theorem State.jump_fault (s : State cfg) (w : Word) : (s.jump w).fault = s.fault := rfl
@[simp] theorem State.jump_lastResult (s : State cfg) (w : Word) : (s.jump w).lastResult = s.lastResult := rfl
@[simp] theorem State.jump_draws (s : State cfg) (w : Word) : (s.jump w).draws = s.draws := rfl

/-! ## draw -/

@[simp] theorem State.draw_v (s : State cfg) : (s.draw.2).v = s.v := rfl
@[simp] theorem State.draw_i (s : State cfg) : (s.draw.2).i = s.i := rfl
@[simp] theorem State.draw_pc (s : State cfg) : (s.draw.2).pc = s.pc := rfl
@[simp] theorem State.draw_pcHigh (s : State cfg) : (s.draw.2).pcHigh = s.pcHigh := rfl
@[simp] theorem State.draw_sp (s : State cfg) : (s.draw.2).sp = s.sp := rfl
@[simp] theorem State.draw_stack (s : State cfg) : (s.draw.2).stack = s.stack := rfl
@[simp] theorem State.draw_dt (s : State cfg) : (s.draw.2).dt = s.dt := rfl
@[simp] theorem State.draw_st (s : State cfg) : (s.draw.2).st = s.st := rfl
@[simp] theorem State.draw_key (s : State cfg) : (s.draw.2).key = s.key := rfl
@[simp] theorem State.draw_disp (s : State cfg) : (s.draw.2).disp = s.disp := rfl
@[simp] theorem State.draw_dirty (s : State cfg) : (s.draw.2).dirty = s.dirty := rfl
@[simp] theorem State.draw_mem (s : State cfg) : (s.draw.2).mem = s.mem := rfl
@[simp] theorem State.draw_fault (s : State cfg) : (s.draw.2).fault = s.fault := rfl
@[simp] theorem State.draw_lastResult (s : State cfg) : (s.draw.2).lastResult = s.lastResult := rfl
@[simp] theorem State.draw_draws (s : State cfg) : (s.draw.2).draws = s.draws + 1 := rfl

/-! ## putCanvas -/

@[simp] theorem State.putCanvas_v (s : State cfg) (k : Canvas cfg) : (s.putCanvas k).v = s.v.set flagReg (flagByte k.collision) := rfl
@[simp] theorem State.putCanvas_i (s : State cfg) (k : Canvas cfg) : (s.putCanvas k).i = s.i := rfl
@[simp] theorem State.putCanvas_pc (s : State cfg) (k : Canvas cfg) : (s.putCanvas k).pc = s.pc := rfl
@[simp] theorem State.putCanvas_pcHigh (s : State cfg) (k : Canvas cfg) : (s.putCanvas k).pcHigh = s.pcHigh := rfl
@[simp] theorem State.putCanvas_sp (s : State cfg) (k : Canvas cfg) : (s.putCanvas k).sp = s.sp := rfl
@[simp] theorem State.putCanvas_stack (s : State cfg) (k : Canvas cfg) : (s.putCanvas k).stack = s.stack := rfl
@[simp] theorem State.putCanvas_dt (s : State cfg) (k : Canvas cfg) : (s.putCanvas k).dt = s.dt := rfl
@[simp] theorem State.putCanvas_st (s : State cfg) (k : Canvas cfg) : (s.putCanvas k).st = s.st := rfl
@[simp] theorem State.putCanvas_key (s : State cfg) (k : Canvas cfg) : (s.putCanvas k).key = s.key := rfl
@[simp] theorem State.putCanvas_disp (s : State cfg) (k : Canvas cfg) : (s.putCanvas k).disp = k.disp := rfl
@[simp] theorem State.putCanvas_dirty (s : State cfg) (k : Canvas cfg) : (s.putCanvas k).dirty = (s.dirty || k.changed) := rfl
@[simp] theorem State.putCanvas_mem (s : State cfg) (k : Canvas cfg) : (s.putCanvas k).mem = s.mem := rfl
@[simp] theorem State.putCanvas_fault (s : State cfg) (k : Canvas cfg) : (s.putCanvas k).fault = s.fault := rfl
@[simp] theorem State.putCanvas_lastResult (s : State cfg) (k : Canvas cfg) : (s.putCanvas k).lastResult = s.lastResult := rfl
@[simp] theorem State.putCanvas_draws (s : State cfg) (k : Canvas cfg) : (s.putCanvas k).draws = s.draws := rfl

/-! ## keySet -/

@[simp] theorem State.keySet_v (s : State cfg) (k : KeyIdx) (b : Bool) : (s.keySet k b).v = s.v := rfl
@[simp] theorem State.keySet_i (s : State cfg) (k : KeyIdx) (b : Bool) : (s.keySet k b).i = s.i := rfl
@[simp] theorem State.keySet_pc (s : State cfg) (k : KeyIdx) (b : Bool) : (s.keySet k b).pc = s.pc := rfl
@[simp] theorem State.keySet_pcHigh (s : State cfg) (k : KeyIdx) (b : Bool) : (s.keySet k b).pcHigh = s.pcHigh := rfl
@[simp] theorem State.keySet_sp (s : State cfg) (k : KeyIdx) (b : Bool) : (s.keySet k b).sp = s.sp := rfl
@[simp] theorem State.keySet_stack (s : State cfg) (k : KeyIdx) (b : Bool) : (s.keySet k b).stack = s.stack := rfl
@[simp] theorem State.keySet_dt (s : State cfg) (k : KeyIdx) (b : Bool) : (s.keySet k b).dt = s.dt := rfl
@[simp] theorem State.keySet_st (s : State cfg) (k : KeyIdx) (b : Bool) : (s.keySet k b).st = s.st := rfl
@[simp] theorem State.keySet_key (s : State cfg) (k : KeyIdx) (b : Bool) : (s.keySet k b).key = s.key.set k b := rfl
@[simp] theorem State.keySet_disp (s : State cfg) (k : KeyIdx) (b : Bool) : (s.keySet k b).disp = s.disp := rfl
@[simp] theorem State.keySet_dirty (s : State cfg) (k : KeyIdx) (b : Bool) : (s.keySet k b).dirty = s.dirty := rfl
@[simp] theorem State.keySet_mem (s : State cfg) (k : KeyIdx) (b : Bool) : (s.keySet k b).mem = s.mem := rfl
@[simp] theorem State.keySet_fault (s : State cfg) (k : KeyIdx) (b : Bool) : (s.keySet k b).fault = s.fault := rfl
@[simp] theorem State.keySet_lastResult (s : State cfg) (k : KeyIdx) (b : Bool) : (s.keySet k b).lastResult = s.lastResult := rfl
@[simp] theorem State.keySet_draws (s : State cfg) (k : KeyIdx) (b : Bool) : (s.keySet k b).draws = s.draws := rfl

/-! ## dirtyClear -/

@[simp] theorem State.dirtyClear_v (s : State cfg) : (s.dirtyClear).v = s.v := rfl
@[simp] theorem State.dirtyClear_i (s : State cfg) : (s.dirtyClear).i = s.i := rfl
@[simp] theorem State.dirtyClear_pc (s : State cfg) : (s.dirtyClear).pc = s.pc := rfl
@[simp] theorem State.dirtyClear_pcHigh (s : State cfg) : (s.dirtyClear).pcHigh = s.pcHigh := rfl
@[simp] theorem State.dirtyClear_sp (s : State cfg) : (s.dirtyClear).sp = s.sp := rfl
@[simp] theorem State.dirtyClear_stack (s : State cfg) : (s.dirtyClear).stack = s.stack := rfl
@[simp] theorem State.dirtyClear_dt (s : State cfg) : (s.dirtyClear).dt = s.dt := rfl
@[simp] theorem State.dirtyClear_st (s : State cfg) : (s.dirtyClear).st = s.st := rfl
@[simp] theorem State.dirtyClear_key (s : State cfg) : (s.dirtyClear).key = s.key := rfl
@[simp] theorem State.dirtyClear_disp (s : State cfg) : (s.dirtyClear).disp = s.disp := rfl
@[simp] theorem State.dirtyClear_dirty (s : State cfg) : (s.dirtyClear).dirty = false := rfl
@[simp] theorem State.dirtyClear_mem (s : State cfg) : (s.dirtyClear).mem = s.mem := rfl
@[simp] theorem State.dirtyClear_fault (s : State cfg) : (s.dirtyClear).fault = s.fault := rfl
@[simp] theorem State.dirtyClear_lastResult (s : State cfg) : (s.dirtyClear).lastResult = s.lastResult := rfl
@[simp] theorem State.dirtyClear_draws (s : State cfg) : (s.dirtyClear).draws = s.draws := rfl

/-! ## timerDec -/

@[simp] theorem State.timerDec_v (s : State cfg) (t : Timer) : (s.timerDec t).v = s.v := by cases t <;> rfl
@[simp] theorem State.timerDec_i (s : State cfg) (t : Timer) : (s.timerDec t).i = s.i := by cases t <;> rfl
@[simp] theorem State.timerDec_pc (s : State cfg) (t : Timer) : (s.timerDec t).pc = s.pc := by cases t <;> rfl
@[simp] theorem State.timerDec_pcHigh (s : State cfg) (t : Timer) : (s.timerDec t).pcHigh = s.pcHigh := by cases t <;> rfl
@[simp] theorem State.timerDec_sp (s : State cfg) (t : Timer) : (s.timerDec t).sp = s.sp := by cases t <;> rfl
@[simp] theorem State.timerDec_stack (s : State cfg) (t : Timer) : (s.timerDec t).stack = s.stack := by cases t <;> rfl
@[simp] theorem State.timerDec_key (s : State cfg) (t : Timer) : (s.timerDec t).key = s.key := by cases t <;> rfl
@[simp] theorem State.timerDec_disp (s : State cfg) (t : Timer) : (s.timerDec t).disp = s.disp := by cases t <;> rfl
@[simp] theorem State.timerDec_dirty (s : State cfg) (t : Timer) : (s.timerDec t).dirty = s.dirty := by cases t <;> rfl
@[simp] theorem State.timerDec_mem (s : State cfg) (t : Timer) : (s.timerDec t).mem = s.mem := by cases t <;> rfl
@[simp] theorem State.timerDec_fault (s : State cfg) (t : Timer) : (s.timerDec t).fault = s.fault := by cases t <;> rfl
@[simp] theorem State.timerDec_lastResult (s : State cfg) (t : Timer) : (s.timerDec t).lastResult = s.lastResult := by cases t <;> rfl
@[simp] theorem State.timerDec_draws (s : State cfg) (t : Timer) : (s.timerDec t).draws = s.draws := by cases t <;> rfl
@[simp] theorem State.timerDec_dt_dt (s : State cfg) : (s.timerDec .dt).dt = countDown s.dt := rfl
@[simp] theorem State.timerDec_dt_st (s : State cfg) : (s.timerDec .dt).st = s.st := rfl
@[simp] theorem State.timerDec_st_dt (s : State cfg) : (s.timerDec .st).dt = s.dt := rfl
@[simp] theorem State.timerDec_st_st (s : State cfg) : (s.timerDec .st).st = countDown s.st := rfl

/-! ## memWrite and memWriteBytes: every field but memory -/

@[simp] theorem State.memWrite_v (s : State cfg) (a : Nat) (b : Byte) : (s.memWrite a b).v = s.v := by
  unfold State.memWrite; split <;> rfl
@[simp] theorem State.memWrite_i (s : State cfg) (a : Nat) (b : Byte) : (s.memWrite a b).i = s.i := by
  unfold State.memWrite; split <;> rfl
@[simp] theorem State.memWrite_pc (s : State cfg) (a : Nat) (b : Byte) : (s.memWrite a b).pc = s.pc := by
  unfold State.memWrite; split <;> rfl
@[simp] theorem State.memWrite_pcHigh (s : State cfg) (a : Nat) (b : Byte) : (s.memWrite a b).pcHigh = s.pcHigh := by
  unfold State.memWrite; split <;> rfl
@[simp] theorem State.memWrite_sp (s : State cfg) (a : Nat) (b : Byte) : (s.memWrite a b).sp = s.sp := by
  unfold State.memWrite; split <;> rfl
@[simp] theorem State.memWrite_stack (s : State cfg) (a : Nat) (b : Byte) : (s.memWrite a b).stack = s.stack := by
  unfold State.memWrite; split <;> rfl
@[simp] theorem State.memWrite_dt (s : State cfg) (a : Nat) (b : Byte) : (s.memWrite a b).dt = s.dt := by
  unfold State.memWrite; split <;> rfl
@[simp] theorem State.memWrite_st (s : State cfg) (a : Nat) (b : Byte) : (s.memWrite a b).st = s.st := by
  unfold State.memWrite; split <;> rfl
@[simp] theorem State.memWrite_key (s : State cfg) (a : Nat) (b : Byte) : (s.memWrite a b).key = s.key := by
  unfold State.memWrite; split <;> rfl
@[simp] theorem State.memWrite_disp (s : State cfg) (a : Nat) (b : Byte) : (s.memWrite a b).disp = s.disp := by
  unfold State.memWrite; split <;> rfl
@[simp] theorem State.memWrite_dirty (s : State cfg) (a : Nat) (b : Byte) : (s.memWrite a b).dirty = s.dirty := by
  unfold State.memWrite; split <;> rfl
@[simp] theorem State.memWrite_fault (s : State cfg) (a : Nat) (b : Byte) : (s.memWrite a b).fault = s.fault := by
  unfold State.memWrite; split <;> rfl
@[simp] theorem State.memWrite_lastResult (s : State cfg) (a : Nat) (b : Byte) : (s.memWrite a b).lastResult = s.lastResult := by
  unfold State.memWrite; split <;> rfl
@[simp] theorem State.memWrite_draws (s : State cfg) (a : Nat) (b : Byte) : (s.memWrite a b).draws = s.draws := by
  unfold State.memWrite; split <;> rfl

/-- A run of writes changes nothing but memory. -/
theorem State.memWriteBytes_eq (s : State cfg) (a : Nat) (bs : List Byte) :
    s.memWriteBytes a bs = { s with mem := (s.memWriteBytes a bs).mem } := by
  induction bs generalizing s a with
  | nil => rfl
  | cons b bs ih => simp only [State.memWriteBytes]; rw [ih]; simp

/-! ## The address of the next instruction through the updates -/

/-- A sum of any size is kept whole: nothing wraps (R222). -/
@[simp] theorem State.pcAddr_setPcAddr (s : State cfg) (a : Nat) : (s.setPcAddr a).pcAddr = a := by
  simp only [State.pcAddr, State.setPcAddr, BitVec.toNat_ofNat]
  omega

@[simp] theorem State.pcAddr_advance (s : State cfg) : (s.advance).pcAddr = s.pcAddr + 2 := State.pcAddr_setPcAddr s _
@[simp] theorem State.pcAddr_skipWhen (s : State cfg) (c : Bool) :
    (s.skipWhen c).pcAddr = if c then s.pcAddr + 4 else s.pcAddr + 2 := State.pcAddr_setPcAddr s _
@[simp] theorem State.pcAddr_jump (s : State cfg) (w : Word) : (s.jump w).pcAddr = w.toNat := by
  simp [State.pcAddr, State.jump]
@[simp] theorem State.pcAddr_writeV (s : State cfg) (x : RegIdx) (b : Byte) : (s.writeV x b).pcAddr = s.pcAddr := rfl
@[simp] theorem State.pcAddr_writeFlag (s : State cfg) (f : Bool) : (s.writeFlag f).pcAddr = s.pcAddr := rfl
@[simp] theorem State.pcAddr_writeResultFlag (s : State cfg) (x : RegIdx) (b : Byte) (f : Bool) : (s.writeResultFlag x b f).pcAddr = s.pcAddr := rfl
@[simp] theorem State.pcAddr_writeI (s : State cfg) (w : Word) : (s.writeI w).pcAddr = s.pcAddr := rfl
@[simp] theorem State.pcAddr_writeDT (s : State cfg) (b : Byte) : (s.writeDT b).pcAddr = s.pcAddr := rfl
@[simp] theorem State.pcAddr_writeST (s : State cfg) (b : Byte) : (s.writeST b).pcAddr = s.pcAddr := rfl
@[simp] theorem State.pcAddr_draw (s : State cfg) : (s.draw.2).pcAddr = s.pcAddr := rfl
@[simp] theorem State.pcAddr_putCanvas (s : State cfg) (k : Canvas cfg) : (s.putCanvas k).pcAddr = s.pcAddr := rfl
@[simp] theorem State.pcAddr_lastResult (s : State cfg) (r : Option StepResult) :
    State.pcAddr { s with lastResult := r } = s.pcAddr := rfl

/-- Below 2^16 the address is `pc` itself. -/
theorem State.pcAddr_eq_pc {s : State cfg} (h : s.pcAddr < 65536) : s.pcHigh = 0 ∧ s.pcAddr = s.pc.toNat := by
  have := s.pc.isLt
  simp only [State.pcAddr] at h ⊢
  omega

/-- Two states with the same program counter hold it in the same fields, where it is below 2^16. -/
theorem State.pc_ext {s t : State cfg} (hs : s.pcAddr < 65536) (h : t.pcAddr = s.pcAddr) :
    t.pc = s.pc ∧ t.pcHigh = s.pcHigh := by
  have h1 := State.pcAddr_eq_pc hs
  have h2 := State.pcAddr_eq_pc (h ▸ hs : t.pcAddr < 65536)
  exact ⟨BitVec.eq_of_toNat_eq (by omega), by omega⟩

/-! ## Register and key reads through the updates -/

@[simp] theorem State.readV_writeV_self (s : State cfg) (x : RegIdx) (b : Byte) : (s.writeV x b).readV x = b := by
  simp [State.readV, State.writeV]

theorem State.readV_writeV (s : State cfg) (x r : RegIdx) (b : Byte) :
    (s.writeV x b).readV r = if r = x then b else s.readV r := by
  by_cases h : r = x
  · subst h; simp
  · have hv : x.val ≠ r.val := fun e => h (Fin.ext e.symm)
    simp [State.readV, State.writeV, h, hv]

theorem State.readV_writeV_of_ne (s : State cfg) {x r : RegIdx} (b : Byte) (h : r ≠ x) :
    (s.writeV x b).readV r = s.readV r := by simp [State.readV_writeV, h]

@[simp] theorem State.readV_writeFlag_flag (s : State cfg) (f : Bool) :
    (s.writeFlag f).readV flagReg = flagByte f := by simp [State.writeFlag]

theorem State.readV_writeFlag (s : State cfg) (r : RegIdx) (f : Bool) :
    (s.writeFlag f).readV r = if r = flagReg then flagByte f else s.readV r := by
  simp [State.writeFlag, State.readV_writeV]

/-- The flag is written last: VF holds it, another destination holds the result (R143). -/
theorem State.readV_writeResultFlag (s : State cfg) (x r : RegIdx) (b : Byte) (f : Bool) :
    (s.writeResultFlag x b f).readV r =
      if r = flagReg then flagByte f else if r = x then b else s.readV r := by
  simp [State.writeResultFlag, State.readV_writeFlag, State.readV_writeV]

theorem State.readV_putCanvas (s : State cfg) (r : RegIdx) (k : Canvas cfg) :
    (s.putCanvas k).readV r = if r = flagReg then flagByte k.collision else s.readV r := by
  simp only [State.putCanvas, State.readV_writeFlag]
  rfl

@[simp] theorem State.readV_writeI (s : State cfg) (w : Word) (r : RegIdx) : (s.writeI w).readV r = s.readV r := rfl
@[simp] theorem State.readV_writeDT (s : State cfg) (b : Byte) (r : RegIdx) : (s.writeDT b).readV r = s.readV r := rfl
@[simp] theorem State.readV_writeST (s : State cfg) (b : Byte) (r : RegIdx) : (s.writeST b).readV r = s.readV r := rfl
@[simp] theorem State.readV_advance (s : State cfg) (r : RegIdx) : (s.advance).readV r = s.readV r := rfl
@[simp] theorem State.readV_skipWhen (s : State cfg) (c : Bool) (r : RegIdx) : (s.skipWhen c).readV r = s.readV r := rfl
@[simp] theorem State.readV_jump (s : State cfg) (w : Word) (r : RegIdx) : (s.jump w).readV r = s.readV r := rfl
@[simp] theorem State.readV_draw (s : State cfg) (r : RegIdx) : (s.draw.2).readV r = s.readV r := rfl

theorem State.keyDown_keySet (s : State cfg) (k j : KeyIdx) (b : Bool) :
    (s.keySet k b).keyDown j = if j = k then b else s.keyDown j := by
  by_cases h : j = k
  · subst h; simp [State.keyDown, State.keySet]
  · have hv : k.val ≠ j.val := fun e => h (Fin.ext e.symm)
    simp [State.keyDown, State.keySet, h, hv]

end Sys2Proof.Machine
end

