-- ==== Sys2Proof/Laws/Memory.lean ====
section
/-!
SUPPORT. The memory block: read after write, the canonical form kept by every write, and equal reads mean equal data.
-/

namespace Sys2Proof.Machine

variable {cfg : Params}

/-! ## The canonical form -/

theorem Memory.wfFrom_cons {lo k : Nat} {b : Byte} {m : Memory} :
    Memory.wfFrom cfg lo ((k, b) :: m) = true ↔
      lo ≤ k ∧ k < cfg.memSize ∧ b ≠ Memory.unlisted cfg k ∧ Memory.wfFrom cfg (k + 1) m = true := by
  simp [Memory.wfFrom, and_assoc]

/-- A canonical memory from a higher address is one from a lower. -/
theorem Memory.wfFrom_mono {lo lo' : Nat} (h : lo' ≤ lo) {m : Memory} (hm : Memory.wfFrom cfg lo m = true) :
    Memory.wfFrom cfg lo' m = true := by
  cases m with
  | nil => rfl
  | cons e m =>
    obtain ⟨k, b⟩ := e
    rw [Memory.wfFrom_cons] at hm ⊢
    exact ⟨h.trans hm.1, hm.2⟩

/-- Below the first address a canonical memory may list, a read gives the unlisted value. -/
theorem Memory.get_of_lt {lo a : Nat} {m : Memory} (hm : Memory.wfFrom cfg lo m = true) (h : a < lo) :
    Memory.get cfg m a = Memory.unlisted cfg a := by
  induction m generalizing lo with
  | nil => rfl
  | cons e m ih =>
    obtain ⟨k, b⟩ := e
    rw [Memory.wfFrom_cons] at hm
    have hk : k ≠ a := by omega
    simp only [Memory.get, hk, if_false]
    exact ih hm.2.2.2 (by omega)

/-- Above every existing address a canonical memory lists nothing. -/
theorem Memory.get_of_ge {lo a : Nat} {m : Memory} (hm : Memory.wfFrom cfg lo m = true) (h : cfg.memSize ≤ a) :
    Memory.get cfg m a = Memory.unlisted cfg a := by
  induction m generalizing lo with
  | nil => rfl
  | cons e m ih =>
    obtain ⟨k, b⟩ := e
    rw [Memory.wfFrom_cons] at hm
    have hk : k ≠ a := by omega
    simp only [Memory.get, hk, if_false]
    exact ih hm.2.2.2

/-- A write keeps the canonical form. -/
theorem Memory.wfFrom_set {lo a : Nat} {b : Byte} {m : Memory} (hm : Memory.wfFrom cfg lo m = true)
    (hlo : lo ≤ a) (ha : a < cfg.memSize) : Memory.wfFrom cfg lo (Memory.set cfg m a b) = true := by
  induction m generalizing lo with
  | nil =>
    by_cases hb : b = Memory.unlisted cfg a
    · simp [Memory.set, hb, Memory.wfFrom]
    · simp only [Memory.set, hb, if_false, Memory.wfFrom_cons]
      exact ⟨hlo, ha, hb, rfl⟩
  | cons e m ih =>
    obtain ⟨k, c⟩ := e
    have hm' := Memory.wfFrom_cons.1 hm
    simp only [Memory.set]
    split
    · next hak =>
      split
      · exact hm
      · next hb =>
        rw [Memory.wfFrom_cons]
        exact ⟨hlo, ha, hb, Memory.wfFrom_cons.2 ⟨by omega, hm'.2⟩⟩
    · split
      · next hak =>
        subst hak
        split
        · exact Memory.wfFrom_mono (by omega) hm'.2.2.2
        · next hb => exact Memory.wfFrom_cons.2 ⟨hlo, ha, hb, hm'.2.2.2⟩
      · next h1 h2 =>
        exact Memory.wfFrom_cons.2 ⟨hm'.1, hm'.2.1, hm'.2.2.1, ih hm'.2.2.2 (by omega)⟩

theorem Memory.wf_set {a : Nat} {b : Byte} {m : Memory} (hm : Memory.wf cfg m = true) (ha : a < cfg.memSize) :
    Memory.wf cfg (Memory.set cfg m a b) = true := Memory.wfFrom_set hm (Nat.zero_le a) ha

/-! ## Read after write -/

theorem Memory.get_set_self {lo a : Nat} {b : Byte} {m : Memory} (hm : Memory.wfFrom cfg lo m = true) :
    Memory.get cfg (Memory.set cfg m a b) a = b := by
  induction m generalizing lo with
  | nil => by_cases hb : b = Memory.unlisted cfg a <;> simp [Memory.set, Memory.get, hb]
  | cons e m ih =>
    obtain ⟨k, c⟩ := e
    have hm' := Memory.wfFrom_cons.1 hm
    simp only [Memory.set]
    split
    · next hak =>
      split
      · next hb =>
        have hk : k ≠ a := by omega
        simp only [Memory.get, hk, if_false]
        rw [Memory.get_of_lt hm'.2.2.2 (by omega)]; exact hb.symm
      · simp [Memory.get]
    · split
      · next hak =>
        subst hak
        split
        · next hb => rw [Memory.get_of_lt hm'.2.2.2 (by omega)]; exact hb.symm
        · simp [Memory.get]
      · next h1 h2 =>
        have hk : k ≠ a := fun e => h2 e.symm
        simp only [Memory.get, hk, if_false]
        exact ih hm'.2.2.2

theorem Memory.get_set_of_ne {a c : Nat} {b : Byte} {m : Memory} (h : c ≠ a) :
    Memory.get cfg (Memory.set cfg m a b) c = Memory.get cfg m c := by
  have hac : ¬ a = c := fun e => h e.symm
  induction m with
  | nil =>
    by_cases hb : b = Memory.unlisted cfg a
    · simp [Memory.set, hb]
    · simp [Memory.set, hb, Memory.get, hac]
  | cons e m ih =>
    obtain ⟨k, d⟩ := e
    simp only [Memory.set]
    split
    · split
      · rfl
      · simp [Memory.get, hac]
    · split
      · next hak =>
        subst hak
        split <;> simp [Memory.get, hac]
      · simp only [Memory.get, ih]

/-! ## Machine-level writes -/

/-- Everything a byte write can do. -/
theorem State.memWrite_spec (s : State cfg) (a : Nat) (b : Byte) :
    (a < cfg.memSize ∧ s.memWrite a b = { s with mem := Memory.set cfg s.mem a b }) ∨
      (cfg.memSize ≤ a ∧ s.memWrite a b = s) := by
  by_cases h : a < cfg.memSize
  · exact .inl ⟨h, by simp [State.memWrite, addressExists, h]⟩
  · exact .inr ⟨by omega, by simp [State.memWrite, addressExists, h]⟩

theorem State.memWrite_wf {s : State cfg} (hm : Memory.wf cfg s.mem = true) (a : Nat) (b : Byte) :
    Memory.wf cfg (s.memWrite a b).mem = true := by
  rcases s.memWrite_spec a b with ⟨h, e⟩ | ⟨_, e⟩
  · rw [e]; exact Memory.wf_set hm h
  · rw [e]; exact hm

theorem State.memWrite_get {s : State cfg} (hm : Memory.wf cfg s.mem = true) (a c : Nat) (b : Byte) :
    Memory.get cfg (s.memWrite a b).mem c = if c = a ∧ a < cfg.memSize then b else Memory.get cfg s.mem c := by
  rcases s.memWrite_spec a b with ⟨h, e⟩ | ⟨h, e⟩
  · rw [e]
    by_cases hc : c = a
    · subst hc; simp [h, Memory.get_set_self hm]
    · simp [hc, Memory.get_set_of_ne hc]
  · rw [e]
    have : ¬ a < cfg.memSize := by omega
    simp [this]

/-- A run of writes keeps the canonical form. -/
theorem State.memWriteBytes_wf {s : State cfg} (hm : Memory.wf cfg s.mem = true) (a : Nat) (bs : List Byte) :
    Memory.wf cfg (s.memWriteBytes a bs).mem = true := by
  induction bs generalizing s a with
  | nil => exact hm
  | cons b bs ih => exact ih (State.memWrite_wf hm a b) (a + 1)

/-- A run of writes leaves every address below its start alone. -/
theorem State.memWriteBytes_get_lt {s : State cfg} (hm : Memory.wf cfg s.mem = true) {a c : Nat} (bs : List Byte)
    (h : c < a) : Memory.get cfg (s.memWriteBytes a bs).mem c = Memory.get cfg s.mem c := by
  induction bs generalizing s a with
  | nil => rfl
  | cons b bs ih =>
    rw [State.memWriteBytes, ih (State.memWrite_wf hm a b) (by omega), State.memWrite_get hm]
    have : ¬ (c = a ∧ a < cfg.memSize) := by omega
    simp [this]

/-- The canonical form at reset. -/
theorem State.resetAt_mem_wf : Memory.wf cfg (State.resetAt cfg).mem = true := rfl

theorem State.reset_mem_wf : Memory.wf Config.params State.reset.mem = true := rfl

/-- Everything `MemRead(addr, 1)` can answer (R53). -/
theorem State.memRead_eq (s : State cfg) (a : Nat) :
    s.memRead a = if a < cfg.memSize then .ok (Memory.get cfg s.mem a) else .error (.memoryOutOfBounds a) := by
  by_cases h : a < cfg.memSize <;> simp [State.memRead, addressExists, h]

end Sys2Proof.Machine
end

