-- ==== Sys2Proof/Laws/Ops.lean ====
section
/-!
SUPPORT. One lemma per shared operation that says once everything it can do: ends of a step, the stack, the operand
forms, the fetch, and the step itself. Proofs cite these and unfold nothing.
-/

namespace Sys2Proof.Machine

variable {cfg : Params}

/-! ## Ends of a step -/

theorem finish_eq (r : StepResult) (s : State cfg) : finish r s = .next { s with lastResult := some r } := rfl

theorem raise_eq (f : Fault) (s : State cfg) :
    raise f s = .next { s with fault := some f, lastResult := some (.err f) } := rfl

@[simp] theorem finish_eq_next {r : StepResult} {s t : State cfg} :
    finish r s = .next t ↔ t = { s with lastResult := some r } := by
  simp only [finish_eq, Host.Outcome.next.injEq]; exact eq_comm

@[simp] theorem raise_eq_next {f : Fault} {s t : State cfg} :
    raise f s = .next t ↔ t = { s with fault := some f, lastResult := some (.err f) } := by
  simp only [raise_eq, Host.Outcome.next.injEq]; exact eq_comm

@[simp] theorem finishOr_ok (s t : State cfg) : finishOr s (.ok t) = finish .ok t := rfl

@[simp] theorem finishOr_error (s : State cfg) (f : Fault) : finishOr s (.error f) = raise f s := rfl

/-- An instruction that may fault ends in its own next state, or in the fault entry from the state before it. -/
theorem finishOr_cases (s : State cfg) (r : Except Fault (State cfg)) :
    (∃ t, r = .ok t ∧ finishOr s r = .next { t with lastResult := some .ok }) ∨
      (∃ f, r = .error f ∧ finishOr s r = .next { s with fault := some f, lastResult := some (.err f) }) := by
  cases r with
  | ok t => exact .inl ⟨t, rfl, rfl⟩
  | error f => exact .inr ⟨f, rfl, rfl⟩

@[simp] theorem haltedStep_eq (f : Fault) (s : State cfg) :
    haltedStep f s = .next { s with lastResult := some (.err f) } := rfl

/-! ## The stack -/

theorem State.push_ok {s : State cfg} (h : s.sp.val + 1 < cfg.stackDepth) :
    s.push = .ok { s with stack := s.stack.set s.sp s.pc, sp := ⟨s.sp.val + 1, h⟩ } := by
  simp only [State.push, dif_pos h]

theorem State.push_error {s : State cfg} (h : ¬ s.sp.val + 1 < cfg.stackDepth) :
    s.push = .error .stackOverflow := by
  simp only [State.push, dif_neg h]

theorem State.pop_ok {s : State cfg} (h : s.sp.val ≠ 0) :
    s.pop = .ok { s with sp := spBelow s.sp, pc := s.stack[spBelow s.sp], pcHigh := 0 } := by
  simp only [State.pop, if_neg h]

theorem State.pop_error {s : State cfg} (h : s.sp.val = 0) : s.pop = .error .stackUnderflow := by
  simp only [State.pop, if_pos h]

@[simp] theorem spBelow_val (sp : Fin cfg.stackDepth) : (spBelow sp).val = sp.val - 1 := rfl

/-! ## Operand forms -/

@[simp] theorem addrOperand_toNat (nnn : Addr12) : (addrOperand nnn).toNat = nnn.toNat := by
  have := nnn.isLt
  simp only [addrOperand, BitVec.toNat_setWidth]
  omega

/-- The jump-with-offset sum is the sum of the two numbers, at most 0x10FE (R117). -/
@[simp] theorem offsetTarget_toNat (nnn : Addr12) (b : Byte) :
    (offsetTarget nnn b).toNat = nnn.toNat + b.toNat := by
  have h1 := nnn.isLt
  have h2 := b.isLt
  simp only [offsetTarget, BitVec.toNat_add, addrOperand_toNat, BitVec.toNat_setWidth]
  omega

@[simp] theorem indexSum_toNat (i : Word) (b : Byte) :
    (indexSum i b).toNat = (i.toNat + b.toNat) % 65536 := by
  have h2 := b.isLt
  simp only [indexSum, BitVec.toNat_add, BitVec.toNat_setWidth]
  omega

theorem keyOperand_ok {b : Byte} (h : b.toNat < 16) : keyOperand b = .ok ⟨b.toNat, h⟩ := by
  simp only [keyOperand, dif_pos h]

theorem keyOperand_error {b : Byte} (h : 15 < b.toNat) : keyOperand b = .error (.keyIndexOutOfRange b) := by
  simp only [keyOperand, dif_neg (show ¬ b.toNat < 16 by omega)]

/-- When every row's address exists, the sprite is the bytes there. -/
theorem State.readSprite_ok {s : State cfg} {base : Word} {n r : Nat}
    (h : ∀ j, r ≤ j → j < r + n → rowAddr base j < cfg.memSize) :
    s.readSprite base n r = .ok ((List.range' r n).map fun j => Memory.get cfg s.mem (rowAddr base j)) := by
  induction n generalizing r with
  | zero => rfl
  | succ n ih =>
    have h0 := h r (le_refl r) (by omega)
    simp only [State.readSprite, State.memRead_eq, h0, if_true,
      ih (r := r + 1) (fun j h1 h2 => h j (by omega) (by omega))]
    simp [List.range'_succ]

/-- Otherwise the lowest address that does not exist is reported. -/
theorem State.readSprite_error {s : State cfg} {base : Word} {n r k : Nat} (hk : r ≤ k) (hkn : k < r + n)
    (hlow : ∀ j, r ≤ j → j < k → rowAddr base j < cfg.memSize) (hbad : cfg.memSize ≤ rowAddr base k) :
    s.readSprite base n r = .error (.memoryOutOfBounds (rowAddr base k)) := by
  induction n generalizing r with
  | zero => omega
  | succ n ih =>
    by_cases hrk : r = k
    · subst hrk
      simp only [State.readSprite, State.memRead_eq, if_neg (show ¬ rowAddr base r < cfg.memSize by omega)]
    · have h0 := hlow r (le_refl r) (by omega)
      simp only [State.readSprite, State.memRead_eq, h0, if_true,
        ih (r := r + 1) (by omega) (by omega) (fun j h1 h2 => hlow j (by omega) h2)]

/-- The key scan finds the smallest pressed key (R173). -/
theorem State.firstKey_eq_some {s : State cfg} {k : KeyIdx} :
    s.firstKey = some k ↔ s.keyDown k = true ∧ ∀ j : KeyIdx, j < k → s.keyDown j = false := by
  unfold State.firstKey
  rw [List.find?_eq_some_iff_getElem]
  constructor
  · rintro ⟨hk, i, hi, hik, hlow⟩
    refine ⟨hk, fun j hj => ?_⟩
    have : j.val < i := by
      rw [← hik] at hj
      simpa [Fin.lt_def] using hj
    simpa using hlow j.val this
  · rintro ⟨hk, hlow⟩
    refine ⟨hk, k.val, by simp, by simp, fun j hj => ?_⟩
    have := hlow ⟨j, by omega⟩ (by simpa [Fin.lt_def] using hj)
    simpa using this

theorem State.firstKey_eq_none {s : State cfg} : s.firstKey = none ↔ ∀ k : KeyIdx, s.keyDown k = false := by
  simp [State.firstKey]

/-! ## Flags -/

theorem flagByte_toNat (b : Bool) : (flagByte b).toNat = if b then 1 else 0 := by cases b <;> rfl

theorem addWrap_toNat (a b : Byte) : (addWrap a b).toNat = (a.toNat + b.toNat) % 256 := by
  simp [addWrap, BitVec.toNat_add]

theorem subWrap_toNat (a b : Byte) :
    (subWrap a b).toNat = if b.toNat ≤ a.toNat then a.toNat - b.toNat else a.toNat + 256 - b.toNat := by
  have h1 := a.isLt
  have h2 := b.isLt
  simp only [subWrap, BitVec.toNat_sub]
  split <;> omega

theorem shiftRight1_toNat (a : Byte) : (shiftRight1 a).toNat = a.toNat / 2 := by
  simp [shiftRight1, Nat.shiftRight_eq_div_pow]

theorem shiftLeft1_toNat (a : Byte) : (shiftLeft1 a).toNat = (a.toNat * 2) % 256 := by
  simp [shiftLeft1, Nat.shiftLeft_eq]

theorem bitOutRight_eq (a : Byte) : bitOutRight a = decide (a.toNat % 2 = 1) := by
  simp [bitOutRight, BitVec.getLsbD, Nat.testBit_zero]

theorem bitOutLeft_eq (a : Byte) : bitOutLeft a = decide (128 ≤ a.toNat) := by
  have h := a.isLt
  rw [Bool.eq_iff_iff]
  simp only [bitOutLeft, BitVec.getLsbD, Nat.testBit_eq_decide_div_mod_eq, decide_eq_true_eq]
  omega

/-! ## Fetch -/

/-- Everything the fetch can answer: bounds first, then alignment, then the two bytes (R54, R55). -/
theorem State.fetchWord_eq (s : State cfg) :
    s.fetchWord =
      if cfg.memSize ≤ s.pcAddr + 1 then .error (.memoryOutOfBounds (s.pcAddr + 1))
      else if s.pcAddr % 2 = 1 then .error (.misalignedPc s.pc)
      else .ok (wordOfBytes (Memory.get cfg s.mem s.pcAddr) (Memory.get cfg s.mem (s.pcAddr + 1))) := by
  by_cases h : cfg.memSize ≤ s.pcAddr + 1
  · simp [State.fetchWord, addressExists, show ¬ s.pcAddr + 1 < cfg.memSize by omega, h]
  · simp [State.fetchWord, addressExists, show s.pcAddr + 1 < cfg.memSize by omega, h]

/-- A fetch succeeds exactly at an even `pc` with both bytes in memory. -/
theorem State.fetchWord_ok {s : State cfg} {w : Word} (h : s.fetchWord = .ok w) :
    s.pcAddr + 1 < cfg.memSize ∧ s.pcAddr % 2 = 0 ∧
      w = wordOfBytes (Memory.get cfg s.mem s.pcAddr) (Memory.get cfg s.mem (s.pcAddr + 1)) := by
  rw [State.fetchWord_eq] at h
  split at h
  · cases h
  · split at h
    · cases h
    · cases h; exact ⟨by omega, by omega, rfl⟩

/-- An instruction was fetched and decoded. -/
theorem State.fetchInstr_ok {s : State cfg} {i : Instr} (h : s.fetchInstr = .ok i) :
    ∃ w, s.fetchWord = .ok w ∧ decode w = .ok i := by
  unfold State.fetchInstr at h
  split at h
  · cases h
  · next w hw =>
    split at h
    · cases h
    · next j hj => cases h; exact ⟨w, hw, hj⟩

theorem State.fetchInstr_of_decode {s : State cfg} {w : Word} {i : Instr} (hw : s.fetchWord = .ok w)
    (hi : decode w = .ok i) : s.fetchInstr = .ok i := by
  simp [State.fetchInstr, hw, hi]

/-- The fetch or the decoder raised a fault. -/
theorem State.fetchInstr_error {s : State cfg} {f : Fault} (h : s.fetchInstr = .error f) :
    s.fetchWord = .error f ∨
      ∃ w e, s.fetchWord = .ok w ∧ decode w = .error e ∧ f = .unimplementedOpcode w := by
  unfold State.fetchInstr at h
  split at h
  · next g hg => cases h; exact .inl hg
  · next w hw =>
    split at h
    · next e he => cases h; exact .inr ⟨w, e, hw, he, rfl⟩
    · cases h

/-! ## The other memory operations keep the canonical form -/

theorem State.storeFetchWord_wf {s : State cfg} (hm : Memory.wf cfg s.mem = true) (w : Word) :
    Memory.wf cfg (s.storeFetchWord w).mem = true := State.memWrite_wf (State.memWrite_wf hm _ _) _ _

theorem State.withFetchWord_wf {s : State} (hm : Memory.wf Config.params s.mem = true) (nbits w : Nat) :
    Memory.wf Config.params (s.withFetchWord nbits w).mem = true := State.storeFetchWord_wf hm _

theorem State.load_wf {s t : State cfg} {bytes : List Byte} (hm : Memory.wf cfg s.mem = true) (h : s.load bytes = .ok t) :
    Memory.wf cfg t.mem = true := by
  unfold State.load at h
  split at h
  · cases h
  · cases h; exact State.memWriteBytes_wf hm _ _

/-! ## The step (R91) -/

/-- At the default configuration the two execute stages are one. -/
theorem execAt_eq_exec (i : Instr) (s : State) : execAt i s = exec i s := by cases i <;> rfl

/-- So are the two steps. -/
theorem stepAt_eq_step (s : State) : stepAt s = step s :=
  congrArg (fun e => stepWith e s) (funext fun i => funext fun t => execAt_eq_exec i t)

section

variable {execute : Instr → State cfg → Host.Outcome (State cfg) Fault Refusal}

theorem stepWith_halted {s : State cfg} {f : Fault} (h : s.fault = some f) :
    stepWith execute s = .next { s with lastResult := some (.err f) } := by
  simp [stepWith, h]

theorem stepWith_fetchError {s : State cfg} {f : Fault} (hs : s.fault = none) (h : s.fetchInstr = .error f) :
    stepWith execute s = .next { s with fault := some f, lastResult := some (.err f) } := by
  simp [stepWith, hs, h, raise_eq]

theorem stepWith_running {s : State cfg} {i : Instr} (hs : s.fault = none) (h : s.fetchInstr = .ok i) :
    stepWith execute s = execute i s := by
  simp [stepWith, hs, h]

/-- Everything a step can do, whatever the execute stage and the configuration. -/
theorem stepWith_cases (execute : Instr → State cfg → Host.Outcome (State cfg) Fault Refusal) (s : State cfg) :
    (∃ f, s.fault = some f ∧ stepWith execute s = .next { s with lastResult := some (.err f) }) ∨
      (∃ f, s.fault = none ∧ s.fetchInstr = .error f ∧
        stepWith execute s = .next { s with fault := some f, lastResult := some (.err f) }) ∨
      (∃ i, s.fault = none ∧ s.fetchInstr = .ok i ∧ stepWith execute s = execute i s) := by
  by_cases hf : s.fault = none
  · rcases hi : s.fetchInstr with f | i
    · exact .inr (.inl ⟨f, hf, rfl, stepWith_fetchError hf hi⟩)
    · exact .inr (.inr ⟨i, hf, rfl, stepWith_running hf hi⟩)
  · obtain ⟨f, hf'⟩ := Option.ne_none_iff_exists'.1 hf
    exact .inl ⟨f, hf', stepWith_halted hf'⟩

end

theorem step_halted {s : State} {f : Fault} (h : s.fault = some f) :
    step s = .next { s with lastResult := some (.err f) } := stepWith_halted h

theorem step_fetchError {s : State} {f : Fault} (hs : s.fault = none) (h : s.fetchInstr = .error f) :
    step s = .next { s with fault := some f, lastResult := some (.err f) } := stepWith_fetchError hs h

theorem step_running {s : State} {i : Instr} (hs : s.fault = none) (h : s.fetchInstr = .ok i) :
    step s = exec i s := stepWith_running hs h

/-- Everything a step can do. -/
theorem step_cases (s : State) :
    (∃ f, s.fault = some f ∧ step s = .next { s with lastResult := some (.err f) }) ∨
      (∃ f, s.fault = none ∧ s.fetchInstr = .error f ∧
        step s = .next { s with fault := some f, lastResult := some (.err f) }) ∨
      (∃ i, s.fault = none ∧ s.fetchInstr = .ok i ∧ step s = exec i s) := stepWith_cases exec s

end Sys2Proof.Machine
end

