-- ==== Sys2Proof/Laws/Display.lean ====
section
/-!
SUPPORT. The sprite loop of R161 as a set of pixels: a draw inverts exactly the pixels the sprite covers, each once.
-/

namespace Sys2Proof.Machine

variable {cfg : Params}

/-- A pixel's place. -/
abbrev Place (cfg : Params) := Fin cfg.dispH × Fin cfg.dispW

@[simp] theorem Display.pixel_setPixel_self (d : Display cfg) (r : Fin cfg.dispH) (c : Fin cfg.dispW) (b : Bool) :
    Display.pixel (Display.setPixel d r c b) r c = b := by
  simp [Display.pixel, Display.setPixel]

theorem Display.pixel_setPixel (d : Display cfg) (r r' : Fin cfg.dispH) (c c' : Fin cfg.dispW) (b : Bool) :
    Display.pixel (Display.setPixel d r c b) r' c' = if r' = r ∧ c' = c then b else Display.pixel d r' c' := by
  by_cases hr : r' = r
  · subst hr
    by_cases hc : c' = c
    · subst hc; simp
    · have hv : c.val ≠ c'.val := fun e => hc (Fin.ext e.symm)
      simp [Display.pixel, Display.setPixel, hc, hv]
  · have hv : r.val ≠ r'.val := fun e => hr (Fin.ext e.symm)
    simp [Display.pixel, Display.setPixel, hr, hv]

@[simp] theorem Display.pixel_blank (r : Fin cfg.dispH) (c : Fin cfg.dispW) :
    Display.pixel Display.blank r c = false := by
  simp [Display.pixel, Display.blank]

/-! ## The loop as a fold over the pixels it inverts -/

/-- One inversion. -/
def flipAt (k : Canvas cfg) (p : Place cfg) : Canvas cfg where
  disp := Display.setPixel k.disp p.1 p.2 (!Display.pixel k.disp p.1 p.2)
  collision := k.collision || Display.pixel k.disp p.1 p.2
  changed := true

/-- The places one sprite row inverts. -/
def rowPlaces (b : Byte) (row cx : Nat) : (n c : Nat) → List (Place cfg)
  | 0, _ => []
  | n + 1, c =>
    (if spriteBit b c then [(wrapRow row, wrapCol (cx + c))] else []) ++ rowPlaces b row cx n (c + 1)

/-- The places a sprite inverts. -/
def spritePlaces (cx cy : Nat) : List Byte → (r : Nat) → List (Place cfg)
  | [], _ => []
  | b :: bs, r => rowPlaces b (cy + r) cx 8 0 ++ spritePlaces cx cy bs (r + 1)

theorem drawColumns_eq_foldl (b : Byte) (row cx n c : Nat) (k : Canvas cfg) :
    drawColumns b row cx n c k = (rowPlaces b row cx n c).foldl flipAt k := by
  induction n generalizing c k with
  | zero => rfl
  | succ n ih =>
    simp only [drawColumns, rowPlaces, List.foldl_append, ih]
    congr 1
    by_cases h : spriteBit b c
    · simp only [drawBit, h, if_true]; rfl
    · simp [drawBit, h]

theorem drawRows_eq_foldl (cx cy : Nat) (bs : List Byte) (r : Nat) (k : Canvas cfg) :
    drawRows cx cy bs r k = (spritePlaces cx cy bs r).foldl flipAt k := by
  induction bs generalizing r k with
  | nil => rfl
  | cons b bs ih => simp only [drawRows, spritePlaces, List.foldl_append, ih, drawRow, drawColumns_eq_foldl]

theorem mem_rowPlaces {b : Byte} {row cx n c : Nat} {p : Place cfg} :
    p ∈ rowPlaces b row cx n c ↔
      ∃ e, c ≤ e ∧ e < c + n ∧ spriteBit b e = true ∧ p = (wrapRow row, wrapCol (cx + e)) := by
  induction n generalizing c with
  | zero =>
    constructor
    · intro h; cases h
    · rintro ⟨e, h1, h2, -⟩; omega
  | succ n ih =>
    rw [rowPlaces, List.mem_append, ih]
    constructor
    · rintro (h | ⟨e, h1, h2, h3⟩)
      · by_cases hb : spriteBit b c
        · simp only [hb, if_true, List.mem_singleton] at h
          exact ⟨c, le_refl c, by omega, hb, h⟩
        · simp [hb] at h
      · exact ⟨e, by omega, by omega, h3⟩
    · rintro ⟨e, h1, h2, h3, h4⟩
      by_cases he : e = c
      · subst he; left; simp [h3, h4]
      · right; exact ⟨e, by omega, by omega, h3, h4⟩

theorem mem_spritePlaces {cx cy : Nat} {bs : List Byte} {r : Nat} {p : Place cfg} :
    p ∈ spritePlaces cx cy bs r ↔
      ∃ j, ∃ h : j < bs.length, ∃ e, e < 8 ∧ spriteBit bs[j] e = true ∧
        p = (wrapRow (cy + (r + j)), wrapCol (cx + e)) := by
  induction bs generalizing r with
  | nil =>
    constructor
    · intro h; cases h
    · rintro ⟨j, h, -⟩; simp at h
  | cons b bs ih =>
    rw [spritePlaces, List.mem_append, ih, mem_rowPlaces]
    constructor
    · rintro (⟨e, -, h2, h3, h4⟩ | ⟨j, h, e, h2, h3, h4⟩)
      · exact ⟨0, by simp, e, by omega, h3, h4⟩
      · exact ⟨j + 1, by simpa using h, e, h2, h3, by rw [h4]; congr 2; omega⟩
    · rintro ⟨j, h, e, h2, h3, h4⟩
      cases j with
      | zero => left; exact ⟨e, by omega, by omega, h3, h4⟩
      | succ j =>
        right
        exact ⟨j, by simpa using h, e, h2, h3, by rw [h4]; congr 2; omega⟩

theorem wrapCol_inj {a b : Nat} (h : wrapCol (cfg := cfg) a = wrapCol b) : a % cfg.dispW = b % cfg.dispW :=
  congrArg Fin.val h

/-- Two numbers less than a modulus apart have different remainders. -/
theorem mod_ne_of_lt {a b m : Nat} (hab : a < b) (hbm : b < a + m) : a % m ≠ b % m := fun h => by
  have hd := (Nat.modEq_iff_dvd' hab.le).1 h
  exact absurd (Nat.le_of_dvd (by omega) hd) (by omega)

theorem wrapRow_inj {a b : Nat} (h : wrapRow (cfg := cfg) a = wrapRow b) : a % cfg.dispH = b % cfg.dispH :=
  congrArg Fin.val h

/-- Eight columns are fewer than `DISP_W`, so one sprite row meets no pixel twice. -/
theorem rowPlaces_nodup (b : Byte) (row cx : Nat) {n c : Nat} (h : n ≤ cfg.dispW) :
    (rowPlaces (cfg := cfg) b row cx n c).Nodup := by
  induction n generalizing c with
  | zero => simp [rowPlaces]
  | succ n ih =>
    rw [rowPlaces, List.nodup_append]
    refine ⟨by split <;> simp, ih (by omega), ?_⟩
    intro p hp q hq
    obtain ⟨e, h1, h2, -, rfl⟩ := mem_rowPlaces.1 hq
    by_cases hb : spriteBit b c
    · simp only [hb, if_true, List.mem_singleton] at hp
      subst hp
      intro he
      have := wrapCol_inj (congrArg Prod.snd he)
      exact mod_ne_of_lt (by omega) (by omega) this
    · simp [hb] at hp

/-- At most `DISP_H` rows: a sprite meets no pixel twice (R161). -/
theorem spritePlaces_nodup (cx cy : Nat) {bs : List Byte} {r : Nat} (h : bs.length ≤ cfg.dispH) :
    (spritePlaces (cfg := cfg) cx cy bs r).Nodup := by
  induction bs generalizing r with
  | nil => simp [spritePlaces]
  | cons b bs ih =>
    simp only [List.length_cons] at h
    rw [spritePlaces, List.nodup_append]
    refine ⟨rowPlaces_nodup b _ cx (by have := cfg.consistent; omega), ih (by omega), ?_⟩
    intro p hp q hq
    obtain ⟨e, -, -, -, rfl⟩ := mem_rowPlaces.1 hp
    obtain ⟨j, hj, e', -, -, rfl⟩ := mem_spritePlaces.1 hq
    intro he
    have := wrapRow_inj (congrArg Prod.fst he)
    exact mod_ne_of_lt (by omega) (by omega) this

/-- Folding inversions over distinct places inverts exactly those, and records whether one of them was set. -/
theorem foldl_flipAt {L : List (Place cfg)} (hL : L.Nodup) (k : Canvas cfg) :
    (∀ p : Place cfg, Display.pixel (L.foldl flipAt k).disp p.1 p.2 =
        if p ∈ L then !Display.pixel k.disp p.1 p.2 else Display.pixel k.disp p.1 p.2) ∧
      ((L.foldl flipAt k).collision = true ↔
        k.collision = true ∨ ∃ p ∈ L, Display.pixel k.disp p.1 p.2 = true) ∧
      ((L.foldl flipAt k).changed = true ↔ k.changed = true ∨ ∃ p, p ∈ L) := by
  induction L generalizing k with
  | nil => simp
  | cons q L ih =>
    obtain ⟨hq, hL'⟩ := List.nodup_cons.1 hL
    obtain ⟨h1, h2, h3⟩ := ih hL' (flipAt k q)
    have hpix : ∀ p : Place cfg, Display.pixel (flipAt k q).disp p.1 p.2 =
        if p = q then !Display.pixel k.disp p.1 p.2 else Display.pixel k.disp p.1 p.2 := by
      intro p
      simp only [flipAt, Display.pixel_setPixel, Prod.ext_iff]
      split
      · next h => rw [h.1, h.2]
      · rfl
    have hne : ∀ p ∈ L, p ≠ q := fun p hp e => hq (e ▸ hp)
    refine ⟨fun p => ?_, ?_, ?_⟩
    · rw [List.foldl_cons, h1, hpix]
      by_cases hp : p = q
      · subst hp; simp [hq]
      · simp [hp]
    · rw [List.foldl_cons, h2]
      constructor
      · rintro (h | ⟨p, hp, h⟩)
        · rcases Bool.or_eq_true _ _ ▸ h with h | h
          · exact .inl h
          · exact .inr ⟨q, by simp, h⟩
        · rw [hpix, if_neg (hne p hp)] at h
          exact .inr ⟨p, by simp [hp], h⟩
      · rintro (h | ⟨p, hp, h⟩)
        · left; simp [flipAt, h]
        · rcases List.mem_cons.1 hp with rfl | hp
          · left; simp [flipAt, h]
          · right; exact ⟨p, hp, by rw [hpix, if_neg (hne p hp)]; exact h⟩
    · rw [List.foldl_cons, h3]
      constructor
      · intro _; exact .inr ⟨q, by simp⟩
      · intro _; exact .inl rfl

/-- The pixels a sprite covers: some 1 bit of some row lands on them (R162, R163). -/
def Covers (cx cy : Nat) (bs : List Byte) (p : Place cfg) : Prop := p ∈ spritePlaces cx cy bs 0

/-- Everything a draw does (R161): covered pixels are inverted, the others left alone; a collision is a covered pixel
that was set; something changed iff some pixel is covered. -/
theorem drawSprite_spec (cx cy : Byte) {bs : List Byte} (d : Display cfg) (h : bs.length ≤ cfg.dispH) :
    (∀ p, Covers cx.toNat cy.toNat bs p → Display.pixel (drawSprite cx cy bs d).disp p.1 p.2 =
        !Display.pixel d p.1 p.2) ∧
      (∀ p, ¬ Covers cx.toNat cy.toNat bs p → Display.pixel (drawSprite cx cy bs d).disp p.1 p.2 =
        Display.pixel d p.1 p.2) ∧
      ((drawSprite cx cy bs d).collision = true ↔
        ∃ p, Covers cx.toNat cy.toNat bs p ∧ Display.pixel d p.1 p.2 = true) ∧
      ((drawSprite cx cy bs d).changed = true ↔ ∃ p : Place cfg, Covers cx.toNat cy.toNat bs p) := by
  obtain ⟨h1, h2, h3⟩ := foldl_flipAt (spritePlaces_nodup cx.toNat cy.toNat (r := 0) h) ⟨d, false, false⟩
  unfold drawSprite Covers
  rw [drawRows_eq_foldl]
  exact ⟨fun p hp => by rw [h1, if_pos hp], fun p hp => by rw [h1, if_neg hp], by simpa using h2, by simpa using h3⟩

end Sys2Proof.Machine
end

