-- ==== Sys2Proof/Laws/PerInstr.lean ====
section
/-!
SUPPORT. Per-instruction laws about the instruction as syntax. The family EncodesItsRow: the word of an instruction
matches the instruction's own row of the opcode map (R75), its fixed bits.
-/

namespace Sys2Proof

/-! ## The masks of R75 as arithmetic -/

theorem and_F000 {x : Nat} (h : x < 65536) : x &&& 0xF000 = x / 4096 * 4096 := by
  apply Nat.eq_of_testBit_eq
  intro i
  have hm : Nat.testBit 0xF000 i = (decide (12 ≤ i) && decide (i - 12 < 4)) := by
    rw [show (0xF000 : Nat) = 2 ^ 12 * (2 ^ 4 - 1) by norm_num, Nat.testBit_two_pow_mul,
      Nat.testBit_two_pow_sub_one]
  have hd : Nat.testBit (x / 4096 * 4096) i = (decide (12 ≤ i) && Nat.testBit x i) := by
    rw [show x / 4096 * 4096 = 2 ^ 12 * (x / 2 ^ 12) by omega, Nat.testBit_two_pow_mul, Nat.testBit_div_two_pow]
    by_cases hi : 12 ≤ i
    · simp [hi, show i - 12 + 12 = i by omega]
    · simp [hi]
  rw [Nat.testBit_and, hm, hd]
  by_cases hi : i < 16
  · have h4 : i - 12 < 4 := by omega
    simp [h4, Bool.and_comm]
  · have hp : 2 ^ 16 ≤ 2 ^ i := Nat.pow_le_pow_right (by norm_num) (by omega)
    have : Nat.testBit x i = false := Nat.testBit_lt_two_pow (by omega)
    simp [this]

theorem and_F00F {x : Nat} (h : x < 65536) : x &&& 0xF00F = x / 4096 * 4096 + x % 16 := by
  have h1 : x &&& 0xF = x % 16 := Nat.and_two_pow_sub_one_eq_mod x 4
  rw [show (0xF00F : Nat) = 0xF000 ||| 0xF by decide, Nat.and_or_distrib_left, and_F000 h, h1,
    show x / 4096 * 4096 = 2 ^ 12 * (x / 4096) by omega, ← Nat.two_pow_add_eq_or_of_lt (by omega)]

theorem and_F0FF {x : Nat} (h : x < 65536) : x &&& 0xF0FF = x / 4096 * 4096 + x % 256 := by
  have h1 : x &&& 0xFF = x % 256 := Nat.and_two_pow_sub_one_eq_mod x 8
  rw [show (0xF0FF : Nat) = 0xF000 ||| 0xFF by decide, Nat.and_or_distrib_left, and_F000 h, h1,
    show x / 4096 * 4096 = 2 ^ 12 * (x / 4096) by omega, ← Nat.two_pow_add_eq_or_of_lt (by omega)]

/-- A row that fixes the family nibble only. -/
theorem OpcodeRow.matches_family {w p : Word} :
    OpcodeRow.matches ⟨p, 0xF000⟩ w = true ↔ w.toNat / 4096 * 4096 = p.toNat := by
  simp only [OpcodeRow.matches, beq_iff_eq]
  rw [← BitVec.toNat_inj, BitVec.toNat_and, show (0xF000 : Word).toNat = 0xF000 from rfl, and_F000 w.isLt]

/-- A row that fixes the family nibble and the low nibble. -/
theorem OpcodeRow.matches_low4 {w p : Word} :
    OpcodeRow.matches ⟨p, 0xF00F⟩ w = true ↔ w.toNat / 4096 * 4096 + w.toNat % 16 = p.toNat := by
  simp only [OpcodeRow.matches, beq_iff_eq]
  rw [← BitVec.toNat_inj, BitVec.toNat_and, show (0xF00F : Word).toNat = 0xF00F from rfl, and_F00F w.isLt]

/-- A row that fixes the family nibble and the low byte. -/
theorem OpcodeRow.matches_low8 {w p : Word} :
    OpcodeRow.matches ⟨p, 0xF0FF⟩ w = true ↔ w.toNat / 4096 * 4096 + w.toNat % 256 = p.toNat := by
  simp only [OpcodeRow.matches, beq_iff_eq]
  rw [← BitVec.toNat_inj, BitVec.toNat_and, show (0xF0FF : Word).toNat = 0xF0FF from rfl, and_F0FF w.isLt]

/-- A row that fixes every bit. -/
theorem OpcodeRow.matches_all {w p : Word} : OpcodeRow.matches ⟨p, 0xFFFF⟩ w = true ↔ w = p := by
  simp only [OpcodeRow.matches, beq_iff_eq]
  rw [show (0xFFFF : Word) = BitVec.allOnes 16 from rfl, BitVec.and_allOnes]

theorem matches_packNNN {op : Nat} (h : op < 16) (nnn : Addr12) {p : Word} (hp : p.toNat = op * 4096) :
    OpcodeRow.matches ⟨p, 0xF000⟩ (packNNN op nnn) = true := by
  have := nnn.isLt
  exact OpcodeRow.matches_family.2 (by rw [packNNN_toNat h, hp]; omega)

theorem matches_packXKK {op : Nat} (h : op < 16) (x : RegIdx) (kk : Byte) {p : Word} (hp : p.toNat = op * 4096) :
    OpcodeRow.matches ⟨p, 0xF000⟩ (packXKK op x kk) = true := by
  have := kk.isLt
  have := x.isLt
  exact OpcodeRow.matches_family.2 (by rw [packXKK_toNat h, hp]; omega)

theorem matches_packX {op : Nat} (h : op < 16) (x : RegIdx) (kk : Byte) {p : Word}
    (hp : p.toNat = op * 4096 + kk.toNat) : OpcodeRow.matches ⟨p, 0xF0FF⟩ (packXKK op x kk) = true := by
  have := kk.isLt
  have := x.isLt
  exact OpcodeRow.matches_low8.2 (by rw [packXKK_toNat h, hp]; omega)

theorem matches_packXY {op : Nat} (h : op < 16) (x y : RegIdx) (n : Nibble) {p : Word}
    (hp : p.toNat = op * 4096 + n.toNat) : OpcodeRow.matches ⟨p, 0xF00F⟩ (packXYN op x y n) = true := by
  have := n.isLt
  have := x.isLt
  have := y.isLt
  exact OpcodeRow.matches_low4.2 (by rw [packXYN_toNat h, hp]; omega)

theorem matches_packXYN {op : Nat} (h : op < 16) (x y : RegIdx) (n : Nibble) {p : Word}
    (hp : p.toNat = op * 4096) : OpcodeRow.matches ⟨p, 0xF000⟩ (packXYN op x y n) = true := by
  have := n.isLt
  have := x.isLt
  have := y.isLt
  exact OpcodeRow.matches_family.2 (by rw [packXYN_toNat h, hp]; omega)

end Sys2Proof

namespace Sys2Proof.Laws.EncodesItsRow

/-- The encoded word matches the row of R75 the instruction belongs to, and that row stands in the map. -/
def Statement (i : Instr) : Prop := i.row.matches (encode i) = true ∧ i.row ∈ opcodeMap

theorem cls : Statement .cls :=
  ⟨by decide, by decide⟩

theorem ret : Statement .ret :=
  ⟨by decide, by decide⟩

theorem nop0 (nnn : Addr12) : Statement (.nop0 nnn) :=
  ⟨matches_packNNN (by decide) nnn rfl, by simp [Instr.row, opcodeMap]⟩

theorem jp (nnn : Addr12) : Statement (.jp nnn) :=
  ⟨matches_packNNN (by decide) nnn rfl, by simp [Instr.row, opcodeMap]⟩

theorem call (nnn : Addr12) : Statement (.call nnn) :=
  ⟨matches_packNNN (by decide) nnn rfl, by simp [Instr.row, opcodeMap]⟩

theorem seImm (x : RegIdx) (kk : Byte) : Statement (.seImm x kk) :=
  ⟨matches_packXKK (by decide) x kk rfl, by simp [Instr.row, opcodeMap]⟩

theorem sneImm (x : RegIdx) (kk : Byte) : Statement (.sneImm x kk) :=
  ⟨matches_packXKK (by decide) x kk rfl, by simp [Instr.row, opcodeMap]⟩

theorem seReg (x : RegIdx) (y : RegIdx) : Statement (.seReg x y) :=
  ⟨matches_packXY (by decide) x y _ rfl, by simp [Instr.row, opcodeMap]⟩

theorem ldImm (x : RegIdx) (kk : Byte) : Statement (.ldImm x kk) :=
  ⟨matches_packXKK (by decide) x kk rfl, by simp [Instr.row, opcodeMap]⟩

theorem addImm (x : RegIdx) (kk : Byte) : Statement (.addImm x kk) :=
  ⟨matches_packXKK (by decide) x kk rfl, by simp [Instr.row, opcodeMap]⟩

theorem ldReg (x : RegIdx) (y : RegIdx) : Statement (.ldReg x y) :=
  ⟨matches_packXY (by decide) x y _ rfl, by simp [Instr.row, opcodeMap]⟩

theorem orReg (x : RegIdx) (y : RegIdx) : Statement (.orReg x y) :=
  ⟨matches_packXY (by decide) x y _ rfl, by simp [Instr.row, opcodeMap]⟩

theorem andReg (x : RegIdx) (y : RegIdx) : Statement (.andReg x y) :=
  ⟨matches_packXY (by decide) x y _ rfl, by simp [Instr.row, opcodeMap]⟩

theorem xorReg (x : RegIdx) (y : RegIdx) : Statement (.xorReg x y) :=
  ⟨matches_packXY (by decide) x y _ rfl, by simp [Instr.row, opcodeMap]⟩

theorem addReg (x : RegIdx) (y : RegIdx) : Statement (.addReg x y) :=
  ⟨matches_packXY (by decide) x y _ rfl, by simp [Instr.row, opcodeMap]⟩

theorem subReg (x : RegIdx) (y : RegIdx) : Statement (.subReg x y) :=
  ⟨matches_packXY (by decide) x y _ rfl, by simp [Instr.row, opcodeMap]⟩

theorem shr (x : RegIdx) (y : RegIdx) : Statement (.shr x y) :=
  ⟨matches_packXY (by decide) x y _ rfl, by simp [Instr.row, opcodeMap]⟩

theorem subnReg (x : RegIdx) (y : RegIdx) : Statement (.subnReg x y) :=
  ⟨matches_packXY (by decide) x y _ rfl, by simp [Instr.row, opcodeMap]⟩

theorem shl (x : RegIdx) (y : RegIdx) : Statement (.shl x y) :=
  ⟨matches_packXY (by decide) x y _ rfl, by simp [Instr.row, opcodeMap]⟩

theorem sneReg (x : RegIdx) (y : RegIdx) : Statement (.sneReg x y) :=
  ⟨matches_packXY (by decide) x y _ rfl, by simp [Instr.row, opcodeMap]⟩

theorem ldI (nnn : Addr12) : Statement (.ldI nnn) :=
  ⟨matches_packNNN (by decide) nnn rfl, by simp [Instr.row, opcodeMap]⟩

theorem jpV0 (nnn : Addr12) : Statement (.jpV0 nnn) :=
  ⟨matches_packNNN (by decide) nnn rfl, by simp [Instr.row, opcodeMap]⟩

theorem rnd (x : RegIdx) (kk : Byte) : Statement (.rnd x kk) :=
  ⟨matches_packXKK (by decide) x kk rfl, by simp [Instr.row, opcodeMap]⟩

theorem drw (x : RegIdx) (y : RegIdx) (n : Nibble) : Statement (.drw x y n) :=
  ⟨matches_packXYN (by decide) x y n rfl, by simp [Instr.row, opcodeMap]⟩

theorem skp (x : RegIdx) : Statement (.skp x) :=
  ⟨matches_packX (by decide) x _ rfl, by simp [Instr.row, opcodeMap]⟩

theorem sknp (x : RegIdx) : Statement (.sknp x) :=
  ⟨matches_packX (by decide) x _ rfl, by simp [Instr.row, opcodeMap]⟩

theorem ldVxDT (x : RegIdx) : Statement (.ldVxDT x) :=
  ⟨matches_packX (by decide) x _ rfl, by simp [Instr.row, opcodeMap]⟩

theorem ldVxK (x : RegIdx) : Statement (.ldVxK x) :=
  ⟨matches_packX (by decide) x _ rfl, by simp [Instr.row, opcodeMap]⟩

theorem ldDTVx (x : RegIdx) : Statement (.ldDTVx x) :=
  ⟨matches_packX (by decide) x _ rfl, by simp [Instr.row, opcodeMap]⟩

theorem ldSTVx (x : RegIdx) : Statement (.ldSTVx x) :=
  ⟨matches_packX (by decide) x _ rfl, by simp [Instr.row, opcodeMap]⟩

theorem addI (x : RegIdx) : Statement (.addI x) :=
  ⟨matches_packX (by decide) x _ rfl, by simp [Instr.row, opcodeMap]⟩

end Sys2Proof.Laws.EncodesItsRow
end

