-- ==== Sys2Proof/Machine/Assembly.lean ====
section
/-!
DEFINITION. The assembler syntax of R82, as a listing of an instruction: mnemonic and operands, numbers in hexadecimal.
It is notation for readers: nothing of the machine depends on it (R82, the spec's decision D26).
-/

namespace Sys2Proof.Machine

/-- One hexadecimal digit. -/
def hexDigit (n : Nat) : Char := Char.ofNat (if n < 10 then 48 + n else 55 + n)

/-- The low `d` hexadecimal digits of a number, the highest first. -/
def hexDigits : Nat → Nat → List Char
  | 0, _ => []
  | d + 1, n => hexDigit (n / 16 ^ d % 16) :: hexDigits d n

/-- A register operand: `V0` to `V9`, `VA` to `VF`. -/
def regOperand (x : RegIdx) : List Char := ['V', hexDigit x.val]

/-- A number operand: `0x` and its digits. -/
def numOperand (d n : Nat) : List Char := ['0', 'x'] ++ hexDigits d n

/-- Mnemonic and operands of an instruction (the table of R82). `SHR` and `SHL` do not show `y`, nor `NOP0` its `nnn`. -/
def asmParts : Instr → List Char × List (List Char)
  | .cls => ("CLS".toList, [])
  | .ret => ("RET".toList, [])
  | .nop0 _ => ("NOP0".toList, [])
  | .jp nnn => ("JP".toList, [numOperand 3 nnn.toNat])
  | .call nnn => ("CALL".toList, [numOperand 3 nnn.toNat])
  | .seImm x kk => ("SE".toList, [regOperand x, numOperand 2 kk.toNat])
  | .sneImm x kk => ("SNE".toList, [regOperand x, numOperand 2 kk.toNat])
  | .seReg x y => ("SE".toList, [regOperand x, regOperand y])
  | .ldImm x kk => ("LD".toList, [regOperand x, numOperand 2 kk.toNat])
  | .addImm x kk => ("ADD".toList, [regOperand x, numOperand 2 kk.toNat])
  | .ldReg x y => ("LD".toList, [regOperand x, regOperand y])
  | .orReg x y => ("OR".toList, [regOperand x, regOperand y])
  | .andReg x y => ("AND".toList, [regOperand x, regOperand y])
  | .xorReg x y => ("XOR".toList, [regOperand x, regOperand y])
  | .addReg x y => ("ADD".toList, [regOperand x, regOperand y])
  | .subReg x y => ("SUB".toList, [regOperand x, regOperand y])
  | .shr x _ => ("SHR".toList, [regOperand x])
  | .subnReg x y => ("SUBN".toList, [regOperand x, regOperand y])
  | .shl x _ => ("SHL".toList, [regOperand x])
  | .sneReg x y => ("SNE".toList, [regOperand x, regOperand y])
  | .ldI nnn => ("LD".toList, [['I'], numOperand 3 nnn.toNat])
  | .jpV0 nnn => ("JP".toList, [['V', '0'], numOperand 3 nnn.toNat])
  | .rnd x kk => ("RND".toList, [regOperand x, numOperand 2 kk.toNat])
  | .drw x y n => ("DRW".toList, [regOperand x, regOperand y, numOperand 1 n.toNat])
  | .skp x => ("SKP".toList, [regOperand x])
  | .sknp x => ("SKNP".toList, [regOperand x])
  | .ldVxDT x => ("LD".toList, [regOperand x, ['D', 'T']])
  | .ldVxK x => ("LD".toList, [regOperand x, ['K']])
  | .ldDTVx x => ("LD".toList, [['D', 'T'], regOperand x])
  | .ldSTVx x => ("LD".toList, [['S', 'T'], regOperand x])
  | .addI x => ("ADD".toList, [['I'], regOperand x])

/-- Operands separated by a comma and a space. -/
def joinOperands : List (List Char) → List Char
  | [] => []
  | [a] => a
  | a :: b :: rest => a ++ [',', ' '] ++ joinOperands (b :: rest)

/-- One line of a listing: the mnemonic, then the operands. -/
def asmLine (i : Instr) : List Char :=
  match asmParts i with
  | (m, []) => m
  | (m, a :: rest) => m ++ [' '] ++ joinOperands (a :: rest)

/-- What the assembler makes of an instruction's line: fields the line does not show are 0 (R82). -/
def assembled : Instr → Instr
  | .nop0 _ => .nop0 0
  | .shr x _ => .shr x 0
  | .shl x _ => .shl x 0
  | .cls => .cls
  | .ret => .ret
  | .jp nnn => .jp nnn
  | .call nnn => .call nnn
  | .seImm x kk => .seImm x kk
  | .sneImm x kk => .sneImm x kk
  | .seReg x y => .seReg x y
  | .ldImm x kk => .ldImm x kk
  | .addImm x kk => .addImm x kk
  | .ldReg x y => .ldReg x y
  | .orReg x y => .orReg x y
  | .andReg x y => .andReg x y
  | .xorReg x y => .xorReg x y
  | .addReg x y => .addReg x y
  | .subReg x y => .subReg x y
  | .subnReg x y => .subnReg x y
  | .sneReg x y => .sneReg x y
  | .ldI nnn => .ldI nnn
  | .jpV0 nnn => .jpV0 nnn
  | .rnd x kk => .rnd x kk
  | .drw x y n => .drw x y n
  | .skp x => .skp x
  | .sknp x => .sknp x
  | .ldVxDT x => .ldVxDT x
  | .ldVxK x => .ldVxK x
  | .ldDTVx x => .ldDTVx x
  | .ldSTVx x => .ldSTVx x
  | .addI x => .addI x

end Sys2Proof.Machine
end

