-- ==== Sys2Proof/Tests/Slice0.lean ====
section
/-!
SUPPORT. The session's own tests, each a named theorem on one step or one word. Expected values are those of
spec/95_test_vectors.md (the vector's name stands in the docstring) or of the encodings of spec/30_encoding.md R75.
The second half holds, for every obligation with hypotheses, a concrete state and operands that meet them.
-/

namespace Sys2Proof.Tests

-- One declaration at a time: the kernel evaluations together would ask for more threads than memory holds.
set_option Elab.async false

open Sys2Proof Sys2Proof.Machine

/-! ## Helpers -/

/-- Reset with one instruction word at `pc`. -/
def start (w : Nat) : State := State.reset.withFetchWord 16 w

/-- The same with `pc` moved first. -/
def startAt (pc : Word) (w : Nat) : State := State.withFetchWord { State.reset with pc := pc } 16 w

/-- Some V registers set. -/
def regs (l : List (RegIdx × Byte)) (s : State) : State := l.foldl (fun t p => t.writeV p.1 p.2) s

/-- The next state, tested. -/
def nextIs {cfg : Params} (o : Host.Outcome (State cfg) Fault Refusal) (p : State cfg → Bool) : Bool :=
  match o with
  | .next t => p t
  | .fault _ => false
  | .refused _ => false

/-- One step, then a check of a few fields. -/
def after (s : State) (p : State → Bool) : Bool := nextIs (step s) p

/-- A step that raises `f` and, as R188 says, changes nothing else. -/
def faults (s : State) (f : Fault) : Bool :=
  after s fun t => t == { s with fault := some f, lastResult := some (.err f) }

/-- The pixels as lists, row by row. -/
def rows (d : Display Config.params) : List (List Bool) := d.toList.map fun row => row.toList

/-- A display with the listed pixels set. -/
def shown (l : List (Fin 32 × Fin 64)) : Display Config.params :=
  l.foldl (fun d p => Display.setPixel d p.1 p.2 true) Display.blank

/-- The rows of a display with the listed pixels set, each (row, column). -/
def rowsShown (l : List (Nat × Nat)) : List (List Bool) :=
  l.foldl (fun d p => d.set p.1 ((d.getD p.1 []).set p.2 true)) (List.replicate 32 (List.replicate 64 false))

/-- The smallest core R6 allows, with a font of its own. -/
def tiny : Params where
  memSize := 82
  progStart := 80
  stackDepth := 2
  dispW := 8
  dispH := 15
  font := List.replicate 80 0x81

/-- Its reset with one instruction word at `PROG_START`. -/
def tinyStart (w : Word) : State tiny := (State.resetAt tiny).storeFetchWord w

/-! ## Another configuration (R5, R6) -/

/-- R36, R54 and R182 with the parameters of `tiny`: `pc` starts at 80, a fetch at 82 needs
address 83, and the second call overflows. -/
theorem test_tiny_limits :
    nextIs (stepAt (tinyStart 0x6205)) (fun t => t.readV 2 == 5 && t.pc == 82 && t.lastResult == some .ok) = true ∧
    nextIs (stepAt { tinyStart 0x6205 with pc := 82 }) (fun t => t.fault == some (.memoryOutOfBounds 83)) = true ∧
    nextIs (stepAt { tinyStart 0x2050 with sp := ⟨1, by decide⟩ }) (fun t => t.fault == some .stackOverflow) = true := by
  decide +kernel

/-- R163 with its display: row 0 of its font (0x81) at column 7, row 14 inverts columns 7 and 6, and nothing else. -/
theorem test_tiny_draw : nextIs (stepAt ((tinyStart 0xD011).writeV 0 7 |>.writeV 1 14)) (fun t =>
    t.disp.toList.map (fun row => row.toList) ==
      List.replicate 14 (List.replicate 8 false) ++ [[false, false, false, false, false, false, true, true]]) = true := by
  decide +kernel

/-- The largest memory R6 allows. -/
def big : Params where
  memSize := 65536

/-- Its reset with `pc` at the last fetch address and one instruction word there. -/
def bigEnd (w : Word) : State big := State.storeFetchWord { State.resetAt big with pc := 0xFFFE } w

/-- Two steps, then a check. -/
def afterTwo (s : State big) (p : State big → Bool) : Bool := nextIs (stepAt s) fun t => nextIs (stepAt t) p

/-- R212 (its derived last clause) and R222: a null action and a taken skip at 65534 do not wrap to 0; the next fetch faults
with `MEM_SIZE + 1`, or with `MEM_SIZE + 3`. -/
theorem test_big_no_wrap : afterTwo (bigEnd 0x0000) (fun t => t.fault == some (.memoryOutOfBounds 65537)) = true ∧
    afterTwo (bigEnd 0x3000) (fun t => t.fault == some (.memoryOutOfBounds 65539)) = true := by decide +kernel

/-! ## WellFormed -/

/-- R77: the words of `CLS` and `RET` are no null action; their neighbours are. -/
theorem test_wellFormed_refuses : Instr.wellFormed (.nop0 0x0E0) = false ∧ Instr.wellFormed (.nop0 0x0EE) = false ∧
    Instr.wellFormed (.nop0 0x0E1) = true ∧ Instr.wellFormed (.nop0 0x0EF) = true ∧
    Instr.wellFormed (.nop0 0x000) = true := by decide

/-! ## Decode: a word written out from R75 for every instruction -/

theorem test_decode_family0 : decode 0x00E0 = .ok .cls ∧ decode 0x00EE = .ok .ret ∧ decode 0x0000 = .ok (.nop0 0) ∧
    decode 0x0FFF = .ok (.nop0 0xFFF) ∧ decode 0x00E1 = .ok (.nop0 0x0E1) ∧ decode 0x00FE = .ok (.nop0 0x0FE) := by decide

theorem test_decode_control : decode 0x1ABC = .ok (.jp 0xABC) ∧ decode 0x2DEF = .ok (.call 0xDEF) ∧
    decode 0x3A42 = .ok (.seImm 10 0x42) ∧ decode 0x4B17 = .ok (.sneImm 11 0x17) ∧ decode 0x5AB0 = .ok (.seReg 10 11) ∧
    decode 0x9CD0 = .ok (.sneReg 12 13) ∧ decode 0xB123 = .ok (.jpV0 0x123) := by decide

theorem test_decode_immediate : decode 0x6205 = .ok (.ldImm 2 0x05) ∧ decode 0x7210 = .ok (.addImm 2 0x10) ∧
    decode 0xC30F = .ok (.rnd 3 0x0F) := by decide

theorem test_decode_family8 : decode 0x8120 = .ok (.ldReg 1 2) ∧ decode 0x8341 = .ok (.orReg 3 4) ∧
    decode 0x8562 = .ok (.andReg 5 6) ∧ decode 0x8783 = .ok (.xorReg 7 8) ∧ decode 0x89A4 = .ok (.addReg 9 10) ∧
    decode 0x8BC5 = .ok (.subReg 11 12) ∧ decode 0x8DE6 = .ok (.shr 13 14) ∧ decode 0x8F07 = .ok (.subnReg 15 0) ∧
    decode 0x812E = .ok (.shl 1 2) := by decide

theorem test_decode_index_display : decode 0xA2F0 = .ok (.ldI 0x2F0) ∧ decode 0xD125 = .ok (.drw 1 2 5) ∧
    decode 0xFA1E = .ok (.addI 10) := by decide

theorem test_decode_timer_keypad : decode 0xE59E = .ok (.skp 5) ∧ decode 0xE6A1 = .ok (.sknp 6) ∧
    decode 0xF307 = .ok (.ldVxDT 3) ∧ decode 0xF70A = .ok (.ldVxK 7) ∧ decode 0xFA15 = .ok (.ldDTVx 10) ∧
    decode 0xF118 = .ok (.ldSTVx 1) := by decide

/-- F12 to F26: the illegal words of R78, near misses of every sub-opcode family. -/
theorem test_decode_refuses :
    ([0x5AB1, 0x5ABF, 0x9AB1, 0x9ABF, 0x8128, 0x8AB9, 0x8ABD, 0x8ABF, 0xE59F, 0xE19F, 0xE000, 0xE5A0].all fun w =>
      decode w == .error (.unimplemented w)) = true ∧
    ([0xF129, 0xF133, 0xF155, 0xF165, 0xF000, 0xF01F, 0xF117, 0xF116, 0xF10B, 0xFFFF].all fun w =>
      decode w == .error (.unimplemented w)) = true := by decide +kernel

/-- R70: every instruction is two bytes; R66: the first is the high one. -/
theorem test_decodeBytes : decodeBytes [0x62, 0x05, 0xAA] = .ok (.ldImm 2 0x05, [0xAA]) ∧
    decodeBytes [0x62] = .error .truncated ∧ decodeBytes [] = .error .truncated := by decide

/-- Encodings written out from R72 and R75. -/
theorem test_encode : encode (.drw 0xD 0xE 0x3) = 0xDDE3 ∧ encode (.shl 10 11) = 0x8ABE ∧ encode (.sknp 7) = 0xE7A1 ∧
    encode (.jpV0 0xFED) = 0xBFED ∧ encode (.seReg 1 2) = 0x5120 ∧ encodeBytes (.call 0x234) = [0x22, 0x34] := by decide

/-- The host's reading of a table row. -/
theorem test_decodeTableWord : decodeTableWord 16 0x8ABE = some (.shl 10 11) ∧ decodeTableWord 16 0x00EE = some .ret ∧
    decodeTableWord 16 0xF129 = none := by decide

/-- R82 and the listings of P1, P3, P5. -/
theorem test_asmLine : asmLine (.ldImm 2 0x05) = "LD V2, 0x05".toList ∧ asmLine (.jp 0x204) = "JP 0x204".toList ∧
    asmLine (.ldI 0x20A) = "LD I, 0x20A".toList ∧ asmLine (.ldDTVx 10) = "LD DT, VA".toList ∧ asmLine .ret = "RET".toList ∧
    asmLine (.shr 1 9) = "SHR V1".toList ∧ encode (assembled (.shr 1 9)) = 0x8106 := by decide +kernel

/-! ## Fetch and faults -/

/-- F1: the word is 0x6205, not 0x0562. -/
theorem test_fetch_byte_order : after (start 0x6205) (fun t => t.readV 2 == 0x05 && t.readV 5 == 0 && t.pc == 0x202 &&
    t.lastResult == some .ok) = true := by decide +kernel

/-- F2, F3, F4: the last fetch address, and the two just past it. -/
theorem test_fetch_end : after (startAt 0xFFE 0x0000) (fun t => t.pc == 0x1000 && t.lastResult == some .okNull) = true ∧
    faults { State.reset with pc := 0xFFF } (.memoryOutOfBounds 0x1000) = true ∧
    faults { State.reset with pc := 0x1000 } (.memoryOutOfBounds 0x1001) = true := by decide +kernel

/-- F6, F12, F20: an odd `pc`, and two words that are no instruction. -/
theorem test_fetch_faults : faults { State.reset with pc := 0x201 } (.misalignedPc 0x201) = true ∧
    faults (start 0x5AB1) (.unimplementedOpcode 0x5AB1) = true ∧
    faults (start 0xF129) (.unimplementedOpcode 0xF129) = true := by decide +kernel

/-! ## Control flow -/

/-- F8, F10: the null action, in and out of the ambiguous band. -/
theorem test_nop0 : after (start 0x0123) (fun t => t == { start 0x0123 with pc := 0x202, lastResult := some .okNull }) = true ∧
    after (start 0x00E1) (fun t => t == { start 0x00E1 with pc := 0x202, lastResult := some .okNull }) = true := by
  decide +kernel

/-- K1, K4. -/
theorem test_jp : after (start 0x1ABC) (fun t => t.pc == 0xABC && t.lastResult == some .ok) = true ∧
    after (start 0x1200) (fun t => t == { start 0x1200 with lastResult := some .ok }) = true := by decide +kernel

/-- K5, K7: the address of the `CALL` itself is pushed; the top slot is never written. -/
theorem test_call : after (start 0x2300) (fun t => t.stack[0] == 0x200 && t.sp == 1 && t.pc == 0x300) = true ∧
    faults { start 0x2300 with sp := 15 } .stackOverflow = true := by decide +kernel

/-- K6: the deepest legal call. -/
theorem test_call_deepest : after { startAt 0x24E 0x2300 with sp := 14 } (fun t => t.stack[14] == 0x24E && t.sp == 15 &&
    t.pc == 0x300 && t.fault == none) = true := by decide +kernel

/-- K9: last in, first out, and nothing added to the popped address. -/
theorem test_ret : after { startAt 0x300 0x00EE with sp := 2, stack := (Vector.replicate 16 0).set 0 0x200 |>.set 1 0x250 }
    (fun t => t.sp == 1 && t.pc == 0x250 && t.stack[1] == 0x250) = true := by decide +kernel

/-- K10. -/
theorem test_ret_underflow : faults (start 0x00EE) .stackUnderflow = true := by decide +kernel

/-- K11, K12. -/
theorem test_seImm : after (regs [(10, 0x42)] (start 0x3A42)) (fun t => t.pc == 0x204) = true ∧
    after (regs [(10, 0x41)] (start 0x3A42)) (fun t => t.pc == 0x202) = true := by decide +kernel

/-- K13, K14. -/
theorem test_sneImm : after (regs [(10, 0x42)] (start 0x4A42)) (fun t => t.pc == 0x202) = true ∧
    after (regs [(10, 0x41)] (start 0x4A42)) (fun t => t.pc == 0x204) = true := by decide +kernel

/-- K15, K16. -/
theorem test_seReg : after (regs [(10, 7), (11, 7)] (start 0x5AB0)) (fun t => t.pc == 0x204) = true ∧
    after (regs [(10, 7), (11, 8)] (start 0x5AB0)) (fun t => t.pc == 0x202) = true := by decide +kernel

/-- K18, K19. -/
theorem test_sneReg : after (regs [(10, 7), (11, 7)] (start 0x9AB0)) (fun t => t.pc == 0x202) = true ∧
    after (regs [(10, 7), (11, 8)] (start 0x9AB0)) (fun t => t.pc == 0x204) = true := by decide +kernel

/-- K21, K22: the sum is not reduced to 12 bits. -/
theorem test_jpV0 : after (regs [(0, 0x10)] (start 0xB300)) (fun t => t.pc == 0x310) = true ∧
    after (regs [(0, 0xFF)] (start 0xBFFF)) (fun t => t.pc == 0x10FE && t.fault == none) = true := by decide +kernel

/-! ## Arithmetic and logic -/

/-- A2: VF is an ordinary destination. -/
theorem test_ldImm : after (start 0x6FAB) (fun t => t.readV 15 == 0xAB && t.pc == 0x202) = true := by decide +kernel

/-- A4, A5: no flag is written. -/
theorem test_addImm : after (regs [(2, 0xFF), (15, 0x77)] (start 0x7201)) (fun t => t.readV 2 == 0 && t.readV 15 == 0x77) = true ∧
    after (regs [(15, 0xFF)] (start 0x7F01)) (fun t => t.readV 15 == 0) = true := by decide +kernel

/-- A6 to A9: VF is left alone. -/
theorem test_ldReg : after (regs [(10, 1), (11, 0x9C), (15, 0x77)] (start 0x8AB0))
    (fun t => t.readV 10 == 0x9C && t.readV 11 == 0x9C && t.readV 15 == 0x77) = true := by decide +kernel

theorem test_orReg : after (regs [(10, 0x0F), (11, 0xF0), (15, 0x77)] (start 0x8AB1))
    (fun t => t.readV 10 == 0xFF && t.readV 15 == 0x77) = true := by decide +kernel

theorem test_andReg : after (regs [(10, 0x3C), (11, 0x0F), (15, 0x77)] (start 0x8AB2))
    (fun t => t.readV 10 == 0x0C && t.readV 15 == 0x77) = true := by decide +kernel

theorem test_xorReg : after (regs [(10, 0xFF), (11, 0x0F), (15, 0x77)] (start 0x8AB3))
    (fun t => t.readV 10 == 0xF0 && t.readV 15 == 0x77) = true := by decide +kernel

/-- A12, A11: the boundary sums 255 and 256, a stale flag cleared. -/
theorem test_addReg : after (regs [(10, 0xFE), (11, 1), (15, 1)] (start 0x8AB4)) (fun t => t.readV 10 == 0xFF && t.readV 15 == 0) = true ∧
    after (regs [(10, 0xFF), (11, 1)] (start 0x8AB4)) (fun t => t.readV 10 == 0 && t.readV 15 == 1) = true := by decide +kernel

/-- A18, A19: VF as destination ends as the flag, VF as source is read first. -/
theorem test_addReg_flag : after (regs [(15, 0x10), (10, 0x20)] (start 0x8FA4)) (fun t => t.readV 15 == 0) = true ∧
    after (regs [(10, 1), (15, 0xFF)] (start 0x8AF4)) (fun t => t.readV 10 == 0 && t.readV 15 == 1) = true := by decide +kernel

/-- A20, A21. -/
theorem test_subReg : after (regs [(10, 0x10), (11, 0x20)] (start 0x8AB5)) (fun t => t.readV 10 == 0xF0 && t.readV 15 == 0) = true ∧
    after (regs [(10, 0x33), (11, 0x33)] (start 0x8AB5)) (fun t => t.readV 10 == 0 && t.readV 15 == 1) = true := by decide +kernel

/-- A30, A33. -/
theorem test_subnReg : after (regs [(10, 0x20), (11, 0x10)] (start 0x8AB7)) (fun t => t.readV 10 == 0xF0 && t.readV 15 == 0) = true ∧
    after (regs [(15, 3), (10, 5)] (start 0x8FA7)) (fun t => t.readV 15 == 1) = true := by decide +kernel

/-- A40, A45: `y` is not used; with `x = 15` the flag stays. -/
theorem test_shr : after (regs [(10, 5), (11, 0xFF)] (start 0x8AB6)) (fun t => t.readV 10 == 2 && t.readV 15 == 1 && t.readV 11 == 0xFF) = true ∧
    after (regs [(15, 2)] (start 0x8F06)) (fun t => t.readV 15 == 0) = true := by decide +kernel

/-- A50, A54. -/
theorem test_shl : after (regs [(10, 0x81), (11, 0xFF)] (start 0x8ABE)) (fun t => t.readV 10 == 2 && t.readV 15 == 1) = true ∧
    after (regs [(15, 0x41)] (start 0x8F0E)) (fun t => t.readV 15 == 0) = true := by decide +kernel

/-- A62: whatever the random byte is, a mask of 0 gives 0, and one draw is counted. -/
theorem test_rnd : ∃ t, step (regs [(10, 0x33)] (start 0xCA00)) = .next t ∧ t.readV 10 = 0 ∧ t.draws = 1 := by
  refine ⟨_, rfl, ?_, rfl⟩
  show Config.rnd 0 &&& 0 = 0
  simp

/-! ## Index register -/

/-- S9, X3. -/
theorem test_ldI : after (start 0xA2F0) (fun t => t.i == 0x2F0 && t.pc == 0x202) = true ∧
    after { start 0xA000 with i := 0x1234 } (fun t => t.i == 0) = true := by decide +kernel

/-- X5, X6: 16 bits, no flag, no masking to 12 bits. -/
theorem test_addI : after { regs [(10, 1), (15, 0x77)] (start 0xFA1E) with i := 0xFFFF } (fun t => t.i == 0 && t.readV 15 == 0x77) = true ∧
    after { regs [(10, 1)] (start 0xFA1E) with i := 0xFFF } (fun t => t.i == 0x1000 && t.fault == none) = true := by decide +kernel

/-! ## Display -/

/-- S10 and G16. -/
theorem test_cls : after { start 0x00E0 with disp := shown [(3, 4)] } (fun t => rows t.disp == rowsShown [] && t.dirty && t.pc == 0x202) = true := by
  decide +kernel

/-- G8: rows wrap from 31 to 0, columns end at 63; the font glyph "A". -/
theorem test_drw_wraps : after { regs [(0, 0x3C), (1, 0x1E)] (start 0xD015) with i := 0x32 } (fun t => t.readV 15 == 0 && t.dirty &&
    rows t.disp == rowsShown [(30, 60), (30, 61), (30, 62), (30, 63), (31, 60), (31, 63), (0, 60), (0, 61), (0, 62), (0, 63),
      (1, 60), (1, 63), (2, 60), (2, 63)]) = true := by
  decide +kernel

/-- G10: a collision, one pixel cleared and one set. -/
theorem test_drw_collides : after { (start 0xD011).memWrite 0x300 0xC0 with i := 0x300, disp := shown [(0, 0)] }
    (fun t => t.readV 15 == 1 && t.dirty && rows t.disp == rowsShown [(0, 1)]) = true := by decide +kernel

/-! ## Timers and keypad -/

/-- T5, T6: the highest valid index and the first invalid one. -/
theorem test_skp : after ((regs [(5, 15)] (start 0xE59E)).keySet 15 true) (fun t => t.pc == 0x204) = true ∧
    faults (regs [(5, 16)] (start 0xE59E)) (.keyIndexOutOfRange 0x10) = true := by decide +kernel

/-- T3, T4. -/
theorem test_sknp : after ((regs [(5, 10)] (startAt 0x220 0xE5A1)).keySet 10 true) (fun t => t.pc == 0x222) = true ∧
    after (regs [(5, 10)] (startAt 0x220 0xE5A1)) (fun t => t.pc == 0x224) = true := by decide +kernel

/-- T8. -/
theorem test_ldVxDT : after { start 0xF307 with dt := 0x2A } (fun t => t.readV 3 == 0x2A && t.dt == 0x2A && t.pc == 0x202) = true := by
  decide +kernel

/-- T11: the lower of two pressed keys. -/
theorem test_ldVxK : after (((startAt 0x230 0xF70A).keySet 9 true).keySet 3 true) (fun t => t.readV 7 == 3 && t.pc == 0x232 &&
    t.lastResult == some .ok) = true := by decide +kernel

/-- T12: with no key nothing moves. -/
theorem test_ldVxK_waits : after (regs [(7, 0x55)] (startAt 0x230 0xF70A)) (fun t => t == { regs [(7, 0x55)] (startAt 0x230 0xF70A) with
    lastResult := some .waiting }) = true := by decide +kernel

/-- T9. -/
theorem test_ldDTVx : after { regs [(10, 3)] (start 0xFA15) with st := 9 } (fun t => t.dt == 3 && t.st == 9) = true := by decide +kernel

/-- T10. -/
theorem test_ldSTVx : after { regs [(1, 0x10)] (start 0xF118) with dt := 9 } (fun t => t.st == 0x10 && t.dt == 9) = true := by decide +kernel

/-! ## The host's moves -/

/-- T15, T16: countdowns stop at 0 and are independent. -/
theorem test_timerDec : countDown 1 = 0 ∧ countDown 0 = 0 ∧
    ({ State.reset with st := 2, dt := 5 }.timerDec .st).st = 1 ∧
    ({ State.reset with st := 2, dt := 5 }.timerDec .st).dt = 5 := by decide +kernel

/-- T17: one byte too many is rejected. -/
theorem test_load_too_large : State.reset.load (List.replicate 3585 0xAA) = .error .loadTooLarge := by
  simp only [State.load, maxProgram, List.length_replicate]; rfl

/-- A load places bytes from 0x200 up, and the first step runs them (P1). -/
theorem test_load_runs : nextIs (runMoves .fresh [.host (.load [0x62, 0x05, 0x72, 0x10]), .core] State.reset)
    (fun t => t.readV 2 == 5 && t.pc == 0x202) = true := by decide +kernel

/-- The font table at 0 (R52), the program space empty. -/
theorem test_reset_memory : State.reset.memRead 0 = .ok 0xF0 ∧ State.reset.memRead 5 = .ok 0x20 ∧ State.reset.memRead 79 = .ok 0x80 ∧
    State.reset.memRead 80 = .ok 0 ∧ State.reset.memRead 0x200 = .ok 0 ∧ State.reset.memRead 4096 = .error (.memoryOutOfBounds 4096) := by
  decide +kernel

/-! ## Witnesses: states and operands that meet each obligation's hypotheses -/

/-- A running state one call deep, about to `CALL`. -/
def deep : State := { start 0x2300 with sp := 1, stack := (Vector.replicate 16 0).set 0 0x208 }

/-- A halted state. -/
def halted : State := { State.reset with pc := 0x1000, fault := some (.memoryOutOfBounds 0x1001) }

theorem deep_inv : Inv deep where
  mem_wf := by decide +kernel
  low_mem a ha := by
    have h : (0x200 : Nat) ≠ a := by have := params_progStart; omega
    have hm : deep.mem = [(0x200, 0x23)] := by decide +kernel
    rw [hm]; simp [Memory.get, h]
  pc_le := by decide +kernel
  held := by decide +kernel
  top_slot := by decide +kernel
  latch f hf := by cases hf

theorem halted_inv : Inv halted where
  mem_wf := by decide +kernel
  low_mem _ _ := rfl
  pc_le := by decide +kernel
  held := by decide +kernel
  top_slot := by decide +kernel
  latch f hf := by cases hf; show (4096 : Nat) ≤ 0x1001; omega

/-- Boundary operands of every field. -/
theorem test_witness_DecodeOfEncode : Instr.wellFormed (.nop0 0xFFF) = true ∧ Instr.wellFormed (.nop0 0x0EF) = true ∧
    Instr.wellFormed (.drw 15 15 15) = true ∧ Instr.wellFormed (.ldImm 15 0xFF) = true ∧ Instr.wellFormed .cls = true := by
  decide

theorem test_witness_EncodeOfDecode : decode 0xDFFF = .ok (.drw 15 15 15) ∧ decode 0x0FFF = .ok (.nop0 0xFFF) := by decide

/-- One word for each clause, and its legal neighbour. -/
theorem test_witness_UnimplementedWords :
    ((0x5001 : Word).toNat / 4096 = 0x5 ∧ (0x5001 : Word).toNat % 16 ≠ 0) ∧ decode 0x5FF0 = .ok (.seReg 15 15) ∧
    ((0x9FFF : Word).toNat / 4096 = 0x9 ∧ (0x9FFF : Word).toNat % 16 ≠ 0) ∧ decode 0x9FF0 = .ok (.sneReg 15 15) ∧
    ((0x800D : Word).toNat / 4096 = 0x8 ∧ (0x800D : Word).toNat % 16 = 0xD) ∧ decode 0x800E = .ok (.shl 0 0) ∧
    ((0xE0A0 : Word).toNat / 4096 = 0xE ∧ (0xE0A0 : Word).toNat % 256 ∉ [0x9E, 0xA1]) ∧ decode 0xE0A1 = .ok (.sknp 0) ∧
    ((0xF01F : Word).toNat / 4096 = 0xF ∧ (0xF01F : Word).toNat % 256 ∉ [0x07, 0x0A, 0x15, 0x18, 0x1E]) ∧
    decode 0xF01E = .ok (.addI 0) := by decide

/-- A word two rows match, and the one of the larger mask decodes. -/
theorem test_witness_DecodeFollowsOpcodeMap : decode 0x00E0 = .ok .cls ∧ (∃ r ∈ opcodeMap, r.matches 0x00E0 = true) ∧
    (Instr.row (.nop0 0)).matches 0x00E0 = true := by decide

theorem test_witness_FamilyZeroIsNullAction : ((0x0FFF : Word).toNat < 0x1000 ∧ (0x0FFF : Word) ≠ 0x00E0 ∧ (0x0FFF : Word) ≠ 0x00EE) ∧
    (0x00E1 : Word).toNat < 0x1000 ∧ (0x00E1 : Word) ≠ 0x00E0 ∧ (0x00E1 : Word) ≠ 0x00EE := by decide

/-- The three branches of the fetch, at their edges. -/
theorem test_witness_FetchBigEndian : Config.params.memSize = 4096 ∧ 4096 ≤ (0x0FFF : Word).toNat + 1 ∧ ¬ 4096 ≤ (0x0FFD : Word).toNat + 1 ∧
    (0x0FFD : Word).toNat % 2 = 1 ∧ ¬ 4096 ≤ (0x0FFE : Word).toNat + 1 ∧ (0x0FFE : Word).toNat % 2 ≠ 1 := by decide

/-- The canonical form, the last address and a written cell. -/
theorem test_witness_MemoryReadAfterWrite : Memory.wf Config.params (start 0x6205).mem = true ∧ (4095 : Nat) < 4096 ∧ (0x200 : Nat) ≠ 4095 := by
  decide +kernel

theorem test_witness_MemoryFormIsCanonical : Memory.wf Config.params [(0, 0xF1), (4095, 1)] = true ∧
    ∀ a : Nat, a < Config.params.memSize → Memory.get Config.params [(0, 0xF1), (4095, 1)] a = Memory.get Config.params [(0, 0xF1), (4095, 1)] a :=
  ⟨by decide +kernel, fun _ _ => rfl⟩

/-- A draw, a step, and a run of three moves with neither a reset nor a load. -/
theorem test_witness_NothingWritesMemory : (∃ t, exec (.drw 0 1 2) State.reset = .next t) ∧ (∃ t, step (start 0xD015) = .next t) ∧
    (.host .reset ∉ [Move.core, .host (.timerDec .dt), .core]) ∧
    (∀ bs : List Byte, .host (.load bs) ∉ [Move.core, .host (.timerDec .dt), .core]) ∧
    ∃ t, runMoves .fresh [.core, .host (.timerDec .dt), .core] (start 0xD015) = .next t :=
  ⟨⟨_, rfl⟩, ⟨_, rfl⟩, by decide, by simp, ⟨_, rfl⟩⟩

/-- The largest program and one byte more. -/
theorem test_witness_LoadCopiesProgram : Memory.wf Config.params State.reset.mem = true ∧
    Config.params.progStart + (List.replicate 3584 (0 : Byte)).length = Config.params.memSize ∧
    Config.params.memSize < Config.params.progStart + (List.replicate 3585 (0 : Byte)).length := by
  refine ⟨rfl, ?_, ?_⟩
  · rw [List.length_replicate]
  · rw [List.length_replicate]; decide

/-- The least values R6 allows, with another font: the premises under which a configuration can be set. -/
theorem test_witness_ParametersConsistent : tiny.memSize = 82 ∧ tiny.progStart = 80 ∧ tiny.stackDepth = 2 ∧ tiny.dispW = 8 ∧
    tiny.dispH = 15 ∧ tiny.font.length = Config.fontLen ∧ tiny.font ≠ Config.defaultFont := by decide

theorem test_witness_StepKeepsInvariant : Inv deep ∧ ∃ t, step deep = .next t ∧ t.sp = 2 :=
  ⟨deep_inv, ⟨_, rfl, by decide +kernel⟩⟩

theorem test_witness_HostMoveKeepsInvariant : Inv halted ∧ halted.fault ≠ none := ⟨halted_inv, by decide +kernel⟩

/-- A run of a load, a step and a key press. -/
theorem test_witness_ReachableStatesMeetInvariant : ∃ s : State, Reachable s ∧ s.pc = 0x202 ∧ s.keyDown 15 = true :=
  ⟨_, ⟨[.host (.load [0x62, 0x05]), .core, .host (.keySet 15 true)], rfl⟩, by decide +kernel, by decide +kernel⟩

theorem test_witness_StepRunsDecodedInstruction : Running (start 0x6205) ∧ (start 0x6205).pcAddr % 2 = 0 ∧
    (start 0x6205).memRead (start 0x6205).pcAddr = .ok 0x62 ∧ (start 0x6205).memRead ((start 0x6205).pcAddr + 1) = .ok 0x05 ∧
    decodeBytes [0x62, 0x05, 0xFF] = .ok (.ldImm 2 0x05, [0xFF]) := ⟨rfl, by decide +kernel⟩

theorem test_witness_HaltedCoreRepeatsFault : halted.fault = some (.memoryOutOfBounds 0x1001) := by decide +kernel

/-- A reset, and a step, of a halted core. -/
theorem test_witness_OnlyResetClearsFault : halted.fault = some (.memoryOutOfBounds 0x1001) ∧
    (∃ t, applyMove (.host .reset) halted = .next t) ∧ ∃ t, applyMove .core halted = .next t :=
  ⟨by decide +kernel, ⟨_, rfl⟩, ⟨_, rfl⟩⟩

theorem test_witness_FaultsArePrecise : Running (start 0xF129) ∧
    ∃ t, step (start 0xF129) = .next t ∧ t.fault = some (.unimplementedOpcode 0xF129) := ⟨rfl, _, rfl, by decide +kernel⟩

/-- Each of the six causes, at the edge of its range. -/
theorem test_witness_FaultsHaveTheirCauses :
    (Running { State.reset with pc := 0xFFF } ∧ FaultCause { State.reset with pc := 0xFFF } (.memoryOutOfBounds 0x1000)) ∧
    FaultCause { start 0xD012 with i := 0xFFF } (.memoryOutOfBounds 0x1000) ∧
    FaultCause { start 0x2300 with sp := 15 } .stackOverflow ∧ FaultCause (start 0x00EE) .stackUnderflow ∧
    FaultCause (start 0x5AB1) (.unimplementedOpcode 0x5AB1) ∧ FaultCause { State.reset with pc := 0xFFD } (.misalignedPc 0xFFD) ∧
    FaultCause (regs [(5, 16)] (start 0xE59E)) (.keyIndexOutOfRange 16) ∧
    FaultCause (regs [(5, 16)] (start 0xE5A1)) (.keyIndexOutOfRange 16) := by
  refine ⟨⟨rfl, .inl (by decide +kernel)⟩, .inr ⟨0, 1, 2, 1, by decide +kernel, by decide, by decide +kernel, by decide, ?_⟩,
    ⟨0x300, by decide +kernel⟩, ⟨by decide +kernel, by decide +kernel⟩, ⟨by decide +kernel, by decide +kernel⟩, ⟨rfl, by decide +kernel, by decide +kernel⟩,
    ⟨5, .inl (by decide +kernel), by decide +kernel⟩,
    ⟨5, .inr (by decide +kernel), by decide +kernel⟩⟩
  intro r hr
  obtain rfl : r = 0 := by omega
  decide +kernel

theorem test_witness_PcFollowsDisciplines : Running (start 0x3000) ∧ ∃ t, exec (.seImm 0 0) (start 0x3000) = .next t ∧ Running t :=
  ⟨rfl, _, rfl, rfl⟩

/-- A completion and a fault. -/
theorem test_witness_StepReportsResult : (Running (start 0x0000) ∧ (start 0x0000).fetchInstr = .ok (.nop0 0) ∧ ∃ t, step (start 0x0000) = .next t) ∧
    Running (start 0x00EE) ∧ (start 0x00EE).fetchInstr = .ok .ret ∧ ∃ t, step (start 0x00EE) = .next t :=
  ⟨⟨rfl, by decide +kernel, _, rfl⟩, rfl, by decide +kernel, _, rfl⟩

/-- A `CALL` with another slot to keep, and an instruction outside every exception of the frame. -/
theorem test_witness_InstructionFrames : (∃ t, exec (.call 0x300) deep = .next t) ∧ (0 : Fin 16) ≠ deep.sp ∧ (∃ t, exec (.ldImm 2 5) deep = .next t) ∧
    (3 : RegIdx) ∉ regsWritten (.ldImm 2 5) := ⟨⟨_, rfl⟩, by decide +kernel, ⟨_, rfl⟩, by decide⟩

theorem test_witness_OthersLeaveFlagAlone : (∃ t, exec (.orReg 1 2) State.reset = .next t) ∧ definesFlag (.orReg 1 2) = false ∧
    flagReg ∉ regsWritten (.orReg 1 2) := ⟨⟨_, rfl⟩, by decide, by decide⟩

theorem test_witness_FlagIsZeroOrOne : Running State.reset ∧ (∃ t, exec (.addReg 15 1) State.reset = .next t ∧ Running t) ∧
    definesFlag (.addReg 15 1) = true := ⟨rfl, ⟨_, rfl, rfl⟩, by decide⟩

/-- The deepest legal call, and the first illegal one. -/
theorem test_witness_CallPushesOwnAddress : ({ State.reset with sp := 14 } : State).sp.val < 15 ∧
    (0 : Fin 16) ≠ ({ State.reset with sp := 14 } : State).sp ∧ ({ State.reset with sp := 15 } : State).sp.val = 15 := by decide +kernel

/-- The two edges of a legal return, and the illegal one. -/
theorem test_witness_ReturnPopsIntoPc : ({ State.reset with sp := 15 } : State).sp.val = (14 : Fin 16).val + 1 ∧
    ({ State.reset with sp := 1 } : State).sp.val = (0 : Fin 16).val + 1 ∧ State.reset.sp.val = 0 := by decide +kernel

/-- S4 and S6 at the deepest legal call. -/
def callPair : State := { ((start 0x2300).memWrite 0x300 0x00).memWrite 0x301 0xEE with sp := 14 }

theorem test_witness_CallThenReturn : Running callPair ∧ callPair.fetchInstr = .ok (.call 0x300) ∧ callPair.sp.val < 15 ∧
    ({ callPair with pc := addrOperand 0x300 } : State).fetchWord = .ok 0x00EE := ⟨rfl, by decide +kernel⟩

/-- The conditions of the skips: met and not met (K11, K12, K15, K16). -/
theorem test_witness_Skips : (regs [(10, 0x42)] State.reset).readV 10 = 0x42 ∧ (regs [(10, 0x41)] State.reset).readV 10 ≠ 0x42 ∧
    (regs [(10, 7), (11, 7)] State.reset).readV 10 = (regs [(10, 7), (11, 7)] State.reset).readV 11 ∧
    (regs [(10, 7), (11, 8)] State.reset).readV 10 ≠ (regs [(10, 7), (11, 8)] State.reset).readV 11 := by decide +kernel

/-- K25, a skip at the last address (K24's neighbour), and a jump to 0xFFF (K3). -/
theorem test_witness_RunningOffTheEndFaults :
    (Running (startAt 0xFFE 0x6A01) ∧ (startAt 0xFFE 0x6A01).fetchInstr = .ok (.ldImm 10 1) ∧
      (∃ t, stepAt (startAt 0xFFE 0x6A01) = .next t ∧ Running t ∧ Config.params.memSize ≤ t.pcAddr + 1) ∧
      (startAt 0xFFE 0x6A01).pcAddr + 2 = Config.params.memSize ∧
      nextPc (startAt 0xFFE 0x6A01) (.ldImm 10 1) = (startAt 0xFFE 0x6A01).pcAddr + 2) ∧
    (Running (startAt 0xFFE 0x3000) ∧ (startAt 0xFFE 0x3000).fetchInstr = .ok (.seImm 0 0) ∧
      (∃ t, stepAt (startAt 0xFFE 0x3000) = .next t ∧ Running t) ∧ (startAt 0xFFE 0x3000).pcAddr + 2 = Config.params.memSize ∧
      nextPc (startAt 0xFFE 0x3000) (.seImm 0 0) = (startAt 0xFFE 0x3000).pcAddr + 4) ∧
    ∃ t, stepAt (start 0x1FFF) = .next t ∧ Running t ∧ t.pcAddr + 1 = Config.params.memSize :=
  ⟨⟨rfl, by decide +kernel, ⟨_, rfl, rfl, by decide +kernel⟩, by decide +kernel, by decide +kernel⟩,
    ⟨rfl, by decide +kernel, ⟨_, rfl, rfl⟩, by decide +kernel, by decide +kernel⟩, _, rfl, rfl, by decide +kernel⟩

/-- The same where the end of memory is the end of the 16-bit register. -/
theorem test_witness_RunningOffTheEndFaults_big : Running (bigEnd 0x0000) ∧ (bigEnd 0x0000).fetchInstr = .ok (.nop0 0) ∧
    (∃ t, stepAt (bigEnd 0x0000) = .next t ∧ Running t ∧ big.memSize ≤ t.pcAddr + 1) ∧ (bigEnd 0x0000).pcAddr + 2 = big.memSize ∧
    nextPc (bigEnd 0x0000) (.nop0 0) = (bigEnd 0x0000).pcAddr + 2 :=
  ⟨rfl, by decide +kernel, ⟨_, rfl, rfl, by decide +kernel⟩, by decide +kernel, rfl⟩

/-- P1's parked state. -/
theorem test_witness_ParkedCoreStays : Parked (startAt 0x204 0x1204) := ⟨rfl, 0x204, by decide +kernel, by decide +kernel⟩

/-- A destination other than VF. -/
theorem test_witness_FlagLast : (10 : RegIdx) ≠ flagReg ∧ (0 : RegIdx) ≠ flagReg ∧ (3 : RegIdx) ∉ [10, flagReg] := by decide

theorem test_witness_DrawMattersOnlyToRnd : (∀ (x : RegIdx) (kk : Byte), (start 0x6205).fetchInstr ≠ .ok (.rnd x kk)) ∧
    ∃ t, step (start 0x6205) = .next t := by
  have h : (start 0x6205).fetchInstr = .ok (.ldImm 2 0x05) := by decide +kernel
  exact ⟨fun x kk e => (by rw [h] at e; cases e), _, rfl⟩

/-- No row at all, and a sprite that ends at the last byte of memory (G4, G14). -/
theorem test_witness_DrawInvertsSprite : ((0 : Nibble) = 0 ∨ ({ State.reset with i := 0xFFFF } : State).i.toNat + (0 : Nibble).toNat ≤ 4096) ∧
    ((15 : Nibble) = 0 ∨ ({ State.reset with i := 0xFF1 } : State).i.toNat + (15 : Nibble).toNat = 4096) := by decide +kernel

/-- Its two flag clauses: a draw that collides, and one that does not; a covered pixel (the glyph "0" at the corner). -/
theorem test_witness_DrawInvertsSprite_flag :
    (∃ t, exec (.drw 0 1 1) { State.reset with disp := shown [(0, 0)] } = .next t ∧
      Display.pixel (shown [(0, 0)]) 0 0 = true ∧ Display.pixel t.disp 0 0 = false) ∧
    (∀ (r : Fin 32) (c : Fin 64), Display.pixel State.reset.disp r c ≠ true) ∧ SpriteCovers State.reset 0 1 1 0 0 :=
  ⟨⟨_, rfl, by decide +kernel, by decide +kernel⟩,
    fun r c h => Bool.false_ne_true ((Display.pixel_blank (cfg := Config.params) r c).symm.trans h), 0, 0, by decide +kernel⟩

/-- Row 1 of a sprite at 0xFFF, and row 0 of one at 0xFFFF. -/
theorem test_witness_DrawPastMemoryFaults : (1 < (2 : Nibble).toNat ∧ 4096 ≤ ({ State.reset with i := 0xFFF } : State).i.toNat + 1 ∧
      ∀ r : Nat, r < 1 → ({ State.reset with i := 0xFFF } : State).i.toNat + r < 4096) ∧
    0 < (1 : Nibble).toNat ∧ 4096 ≤ ({ State.reset with i := 0xFFFF } : State).i.toNat + 0 ∧
      ∀ r : Nat, r < 0 → ({ State.reset with i := 0xFFFF } : State).i.toNat + r < 4096 := by decide +kernel

/-- S8 with the glyph "0", on an empty display: a covered pixel exists and every one is unset. -/
theorem test_witness_DrawTwiceRestores : (0 : RegIdx) ≠ flagReg ∧ (1 : RegIdx) ≠ flagReg ∧ Running State.reset ∧
    (∃ t u, exec (.drw 0 1 5) State.reset = .next t ∧ Running t ∧ exec (.drw 0 1 5) t = .next u) ∧
    (∀ (r : Fin 32) (c : Fin 64), SpriteCovers State.reset 0 1 5 r c → Display.pixel State.reset.disp r c = false) ∧
    SpriteCovers State.reset 0 1 5 0 0 :=
  ⟨by decide, by decide, rfl, ⟨_, _, rfl, rfl, rfl⟩, fun r c _ => Display.pixel_blank (cfg := Config.params) r c, 0, 0, by decide +kernel⟩

/-- The last key, the first, and the first number above them. -/
theorem test_witness_KeySkips : ((regs [(5, 15)] State.reset).readV 5).toNat = (15 : KeyIdx).val ∧
    ((regs [(5, 0)] State.reset).readV 5).toNat = (0 : KeyIdx).val ∧ 15 < ((regs [(5, 16)] State.reset).readV 5).toNat ∧
    ((State.reset.keySet 15 true).keyDown 15 = true) ∧ State.reset.keyDown 15 ≠ true := by decide +kernel

/-- Only the last key down, two keys down, none down. -/
theorem test_witness_KeyWaitPolls :
    ((State.reset.keySet 15 true).keyDown 15 = true ∧ ∀ j : KeyIdx, j < 15 → (State.reset.keySet 15 true).keyDown j = false) ∧
    (((State.reset.keySet 3 true).keySet 9 true).keyDown 3 = true ∧
      ∀ j : KeyIdx, j < 3 → ((State.reset.keySet 3 true).keySet 9 true).keyDown j = false) ∧
    ∀ k : KeyIdx, State.reset.keyDown k = false := by decide +kernel

/-- A step of another instruction, and a countdown at 0. -/
theorem test_witness_DelayTimerNeverRises : (∃ t, applyMove .core (start 0x6205) = .next t) ∧ (Move.core ≠ .host .reset) ∧
    (∀ x : RegIdx, (start 0x6205).fetchInstr ≠ .ok (.ldDTVx x)) ∧ (∃ t, applyMove (.host (.timerDec .dt)) State.reset = .next t) ∧
    Move.host (.timerDec .dt) ≠ .host .reset := by
  have h : (start 0x6205).fetchInstr = .ok (.ldImm 2 0x05) := by decide +kernel
  exact ⟨⟨_, rfl⟩, by decide, fun x e => (by rw [h] at e; cases e), ⟨_, rfl⟩, by decide⟩

/-- R210: a reset of a halted core with other registers, pixels, timers and draws; only the draws stay. -/
theorem test_hostReset :
    hostMove .reset { regs [(0, 1), (15, 1)] halted with i := 7, dirty := true, draws := 3, disp := shown [(31, 63)], st := 9, dt := 9 } =
      { State.reset with draws := 3 } := rfl

/-- The effects of the three small moves at the edges: a key set and cleared, a timer at 0, 1 and 255, a dirty flag set. -/
theorem test_hostMoves : (hostMove (.keySet 15 true) State.reset).keyDown 15 = true ∧
    (hostMove (.keySet 0 false) (State.reset.keySet 0 true)).keyDown 0 = false ∧
    (hostMove (.timerDec .dt) { State.reset with dt := 0 }).dt = 0 ∧ (hostMove (.timerDec .dt) { State.reset with dt := 1 }).dt = 0 ∧
    (hostMove (.timerDec .st) { State.reset with st := 255 }).st = 254 ∧
    (hostMove .dirtyClear { State.reset with dirty := true }).dirty = false := by decide +kernel

/-- A load, whose bytes start at 0x200, and another move. -/
theorem test_witness_HostMovesAreLimited : (HostMove.load [1, 2] ≠ .reset) ∧ HostMove.dirtyClear ≠ .reset ∧ Memory.wf Config.params State.reset.mem = true ∧
    (0x1FF : Nat) < 0x200 ∧ ∀ bs : List Byte, HostMove.dirtyClear ≠ .load bs := by
  exact ⟨by decide, by decide, rfl, by omega, fun bs e => by cases e⟩

theorem test_witness_SoundTimerAndDirtyUnread : ∃ t, step (start 0xF118) = .next t := ⟨_, rfl⟩

/-- One call deep, every slot but the held one changed. -/
theorem test_witness_FreeStackSlotsUnread : (∀ k : Fin 16, k.val < deep.sp.val → ((Vector.replicate 16 (7 : Word)).set 0 0x208)[k] = deep.stack[k]) ∧
    ∃ t, step deep = .next t := ⟨by decide +kernel, _, rfl⟩

end Sys2Proof.Tests
end

section
/-!
PROOFS. Memory is constant between a reset or a load and the next (spec/20_memory.md R58): what every instruction, every
step and every other host move leaves of it, at any configuration.
-/

namespace Sys2Proof.Machine

variable {cfg : Params}

/-! ## Runs -/

/-- A run that begins with a move makes that move, admitted, and goes on from where it led. -/
theorem runMoves_cons_next {p : Phase} {m : Move} {ms : List Move} {s t : State cfg}
    (h : runMoves p (m :: ms) s = .next t) :
    admits cfg p m = true ∧ ∃ u, applyMove m s = .next u ∧ runMoves (phaseAfter p m) ms u = .next t := by
  unfold runMoves at h
  split at h
  · next hadm =>
    split at h
    · next u hu => exact ⟨hadm, u, hu, h⟩
    · cases h
    · cases h
  · cases h

/-- What every move of a run keeps holds at its end. -/
theorem runMoves_preserves {P : State cfg → Prop} {p : Phase} {ms : List Move} {s t : State cfg}
    (hmove : ∀ m ∈ ms, ∀ u v : State cfg, P u → applyMove m u = .next v → P v)
    (hs : P s) (h : runMoves p ms s = .next t) : P t := by
  induction ms generalizing p s with
  | nil => cases h; exact hs
  | cons m ms ih =>
    obtain ⟨-, u, hu, hrun⟩ := runMoves_cons_next h
    exact ih (fun m' hm' => hmove m' (List.mem_cons_of_mem m hm')) (hmove m List.mem_cons_self s u hs hu) hrun

/-! ## The stack and the ends of a step -/

theorem State.push_mem {s t : State cfg} (h : s.push = .ok t) : t.mem = s.mem := by
  by_cases hsp : s.sp.val + 1 < cfg.stackDepth
  · rw [State.push_ok hsp] at h; cases h; rfl
  · rw [State.push_error hsp] at h; cases h

theorem State.pop_mem {s t : State cfg} (h : s.pop = .ok t) : t.mem = s.mem := by
  by_cases hsp : s.sp.val = 0
  · rw [State.pop_error hsp] at h; cases h
  · rw [State.pop_ok hsp] at h; cases h; rfl

theorem finish_mem {r : StepResult} {s u t : State cfg} (h : finish r u = .next t) (hu : u.mem = s.mem) :
    t.mem = s.mem := by
  rw [finish_eq_next] at h; subst h; exact hu

/-- An instruction that may fault keeps memory when its next state does: the fault entry writes none (R188). -/
theorem finishOr_mem {r : Except Fault (State cfg)} {s t : State cfg} (h : finishOr s r = .next t)
    (hr : ∀ u, r = .ok u → u.mem = s.mem) : t.mem = s.mem := by
  obtain ⟨u, hu, hnext⟩ | ⟨f, -, hnext⟩ := finishOr_cases s r
  · rw [hnext] at h; cases h; exact hr u hu
  · rw [hnext] at h; cases h; rfl

/-- The same for an instruction that computes its next state from an operand whose reading may fault. -/
theorem finishOr_map_mem {α : Type} {r : Except Fault α} {f : α → State cfg} {s t : State cfg}
    (h : finishOr s (r.map f) = .next t) (hf : ∀ a, r = .ok a → (f a).mem = s.mem) : t.mem = s.mem := by
  cases r with
  | ok a => exact finish_mem h (hf a rfl)
  | error e => exact finishOr_mem h nofun

/-! ## Instructions, steps and moves -/

/-- No instruction writes memory. Six need a word: those that may fault, and the key wait, which ends in one of two ways;
the rest end in an update of the other fields. -/
theorem execAt_mem {i : Instr} {s t : State cfg} (h : execAt i s = .next t) : t.mem = s.mem := by
  cases i with
  | ret => exact finishOr_mem h fun _ => State.pop_mem
  | call nnn => exact finishOr_map_mem h fun _ => State.push_mem
  | drw x y n => exact finishOr_map_mem h fun _ _ => rfl
  | skp x => exact finishOr_map_mem h fun _ _ => rfl
  | sknp x => exact finishOr_map_mem h fun _ _ => rfl
  | ldVxK x =>
    simp only [execAt, execLdVxK] at h
    split at h
    · exact finish_mem h rfl
    · exact finish_mem h rfl
  | _ => exact finish_mem h rfl

theorem exec_mem {i : Instr} {s t : State} (h : exec i s = .next t) : t.mem = s.mem :=
  execAt_mem ((execAt_eq_exec i s).trans h)

theorem stepAt_mem {s t : State cfg} (h : stepAt s = .next t) : t.mem = s.mem := by
  unfold stepAt at h
  obtain ⟨f, -, hstep⟩ | ⟨f, -, -, hstep⟩ | ⟨i, -, -, hstep⟩ := stepWith_cases execAt s
  · rw [hstep] at h; cases h; rfl
  · rw [hstep] at h; cases h; rfl
  · exact execAt_mem (hstep.symm.trans h)

theorem step_mem {s t : State} (h : step s = .next t) : t.mem = s.mem :=
  stepAt_mem ((stepAt_eq_step s).trans h)

/-- Of the host's moves only a reset and a load write memory. -/
theorem hostMove_mem {m : HostMove} (s : State cfg) (hreset : m ≠ .reset) (hload : ∀ bs : List Byte, m ≠ .load bs) :
    (hostMove m s).mem = s.mem := by
  cases m with
  | reset => exact absurd rfl hreset
  | load bs => exact absurd rfl (hload bs)
  | keySet k b => exact State.keySet_mem s k b
  | timerDec d => exact State.timerDec_mem s d
  | dirtyClear => exact State.dirtyClear_mem s

theorem applyMove_mem {m : Move} {s t : State cfg} (hreset : m ≠ .host .reset)
    (hload : ∀ bs : List Byte, m ≠ .host (.load bs)) (h : applyMove m s = .next t) : t.mem = s.mem := by
  cases m with
  | core => exact stepAt_mem h
  | host m =>
    cases h
    exact hostMove_mem s (fun e => hreset (e ▸ rfl)) fun bs e => hload bs (e ▸ rfl)

/-- So a run without a reset or a load ends with the memory it began with (R58). -/
theorem runMoves_mem {p : Phase} {ms : List Move} {s t : State cfg} (hreset : .host .reset ∉ ms)
    (hload : ∀ bs : List Byte, .host (.load bs) ∉ ms) (h : runMoves p ms s = .next t) : t.mem = s.mem :=
  runMoves_preserves (P := fun u => u.mem = s.mem)
    (fun _ hm _ _ hu hmove => (applyMove_mem (fun e => hreset (e ▸ hm)) (fun bs e => hload bs (e ▸ hm)) hmove).trans hu)
    rfl h

/-- Settles O11: every instruction keeps memory, so every step does, and so does every run of steps and of the host moves
other than reset and load, by induction over its moves. -/
theorem nothingWritesMemory : Obligations.NothingWritesMemory :=
  ⟨fun _ _ _ => exec_mem, fun _ _ => step_mem, fun _ _ _ _ => runMoves_mem⟩

end Sys2Proof.Machine
end

section
/-!
PROOFS. The V registers (spec/10_state.md R34, spec/42_arith_logic.md R130, R131, R144): at any configuration an
instruction changes no register outside its write column, and what the two immediate instructions do in full.
-/

namespace Sys2Proof.Machine

variable {cfg : Params}

/-! ## Register frames of the updates -/

theorem State.writeV_regs (s : State cfg) (x : RegIdx) (b : Byte) : SameRegsBut [x] s (s.writeV x b) :=
  fun _ hr => State.readV_writeV_of_ne s b (List.ne_of_not_mem_cons hr)

theorem State.writeResultFlag_regs (s : State cfg) (x : RegIdx) (b : Byte) (f : Bool) :
    SameRegsBut [x, flagReg] s (s.writeResultFlag x b f) := by
  intro r hr
  have hx : r ≠ x := List.ne_of_not_mem_cons hr
  have hflag : r ≠ flagReg := List.ne_of_not_mem_cons (List.not_mem_of_not_mem_cons hr)
  rw [State.readV_writeResultFlag, if_neg hflag, if_neg hx]

theorem State.putCanvas_regs (s : State cfg) (k : Canvas cfg) : SameRegsBut [flagReg] s (s.putCanvas k) := by
  intro r hr
  rw [State.readV_putCanvas, if_neg (List.ne_of_not_mem_cons hr)]

theorem State.push_regs {s t : State cfg} (h : s.push = .ok t) : SameRegsBut [] s t := by
  by_cases hsp : s.sp.val + 1 < cfg.stackDepth
  · rw [State.push_ok hsp] at h; cases h; exact fun _ _ => rfl
  · rw [State.push_error hsp] at h; cases h

theorem State.pop_regs {s t : State cfg} (h : s.pop = .ok t) : SameRegsBut [] s t := by
  by_cases hsp : s.sp.val = 0
  · rw [State.pop_error hsp] at h; cases h
  · rw [State.pop_ok hsp] at h; cases h; exact fun _ _ => rfl

/-! ## Register frames of the ends of a step -/

theorem finish_regs {xs : List RegIdx} {r : StepResult} {s u t : State cfg} (h : finish r u = .next t)
    (hu : SameRegsBut xs s u) : SameRegsBut xs s t := by
  rw [finish_eq_next] at h; subst h; exact hu

/-- An instruction that may fault keeps the registers its next state keeps: the fault entry writes none (R188). -/
theorem finishOr_regs {xs : List RegIdx} {r : Except Fault (State cfg)} {s t : State cfg} (h : finishOr s r = .next t)
    (hr : ∀ u, r = .ok u → SameRegsBut xs s u) : SameRegsBut xs s t := by
  obtain ⟨u, hu, hnext⟩ | ⟨f, -, hnext⟩ := finishOr_cases s r
  · rw [hnext] at h; cases h; exact hr u hu
  · rw [hnext] at h; cases h; exact fun _ _ => rfl

/-- The same for an instruction that computes its next state from an operand whose reading may fault. -/
theorem finishOr_map_regs {α : Type} {xs : List RegIdx} {r : Except Fault α} {f : α → State cfg} {s t : State cfg}
    (h : finishOr s (r.map f) = .next t) (hf : ∀ a, r = .ok a → SameRegsBut xs s (f a)) : SameRegsBut xs s t := by
  cases r with
  | ok a => exact finish_regs h (hf a rfl)
  | error e => exact finishOr_regs h nofun

/-! ## The write columns of R34 -/

/-- No instruction changes a V register outside its write column, whether it succeeds, waits or faults. The instructions
go by what they write: a result and the flag, the flag of a draw, one register, or none. -/
theorem execAt_regs {i : Instr} {s t : State cfg} (h : execAt i s = .next t) : SameRegsBut (regsWritten i) s t := by
  cases i with
  | addReg x y | subReg x y | subnReg x y | shr x y | shl x y =>
    exact finish_regs h (State.writeResultFlag_regs s x _ _)
  | drw x y n => exact finishOr_map_regs h fun _ _ => State.putCanvas_regs s _
  | ldImm x kk | addImm x kk | ldReg x y | orReg x y | andReg x y | xorReg x y | ldVxDT x =>
    exact finish_regs h (State.writeV_regs s x _)
  | rnd x kk => exact finish_regs h (State.writeV_regs s.draw.2 x _)
  | ldVxK x =>
    simp only [execAt, execLdVxK] at h
    split at h
    · exact finish_regs h (State.writeV_regs s x _)
    · exact finish_regs h fun _ _ => rfl
  | ret => exact finishOr_regs h fun _ => State.pop_regs
  | call nnn => exact finishOr_map_regs h fun _ => State.push_regs
  | skp x | sknp x => exact finishOr_map_regs h fun _ _ _ _ => rfl
  | _ => exact finish_regs h fun _ _ => rfl

theorem exec_regs {i : Instr} {s t : State} (h : exec i s = .next t) : SameRegsBut (regsWritten i) s t :=
  execAt_regs ((execAt_eq_exec i s).trans h)

/-- Settles O28: VF is a register outside the write column, and those are left alone. -/
theorem othersLeaveFlagAlone : Obligations.OthersLeaveFlagAlone :=
  fun _ _ _ h _ hflag => exec_regs h flagReg hflag

/-! ## The immediate instructions -/

theorem decode_packXKK_ldImm (x : RegIdx) (kk : Byte) : decode (packXKK 0x6 x kk) = .ok (.ldImm x kk) := by
  simp [decode, packXKK_op, packXKK_x, packXKK_kk]

theorem decode_packXKK_addImm (x : RegIdx) (kk : Byte) : decode (packXKK 0x7 x kk) = .ok (.addImm x kk) := by
  simp [decode, packXKK_op, packXKK_x, packXKK_kk]

/-- Everything outside the registers, `pc` and the step's result passes a register write and an advance unchanged. -/
theorem sameOutsideV_writeV_advance (s : State cfg) (x : RegIdx) (b : Byte) (r : Option StepResult) :
    SameOutsideV s { (s.writeV x b).advance with lastResult := r } :=
  ⟨rfl, ⟨rfl, fun _ => rfl⟩, ⟨rfl, rfl, fun _ => rfl⟩, ⟨fun _ _ => rfl, rfl⟩, fun _ => rfl, rfl⟩

/-- What an instruction does that writes one register and advances: the register holds the byte, every other register
and everything outside them is the same. -/
theorem finish_writeV_advance (s : State cfg) (x : RegIdx) (b : Byte) :
    ∃ t, finish .ok (s.writeV x b).advance = .next t ∧ t.readV x = b ∧ SameRegsBut [x] s t ∧ PcAdvances 2 s t ∧
      SameOutsideV s t :=
  ⟨_, rfl, State.readV_writeV_self s x b, State.writeV_regs s x b, State.pcAddr_advance (s.writeV x b),
    sameOutsideV_writeV_advance s x b (some .ok)⟩

/-- Settles O39: the word is a packed one, and the instruction writes the immediate and advances. -/
theorem loadImmediate : Obligations.LoadImmediate :=
  fun x kk s => ⟨decode_packXKK_ldImm x kk, finish_writeV_advance s x kk⟩

/-- Settles O40: as `loadImmediate`, where the byte written is the sum modulo 256. -/
theorem addImmediate : Obligations.AddImmediate := by
  intro x kk s
  obtain ⟨t, hexec, hx, hframe⟩ := finish_writeV_advance s x (addWrap (s.readV x) kk)
  exact ⟨decode_packXKK_addImm x kk, t, hexec, hx ▸ addWrap_toNat (s.readV x) kk, hframe⟩

end Sys2Proof.Machine
end

section
/-!
PROOFS. The index register (spec/43_index.md R150): at any configuration, what an instruction does in full that writes `I`
and advances, and the encoding of `LD I,nnn`.
-/

namespace Sys2Proof.Machine

variable {cfg : Params}

theorem decode_packNNN_ldI (nnn : Addr12) : decode (packNNN 0xA nnn) = .ok (.ldI nnn) := by
  simp [decode, packNNN_op, packNNN_nnn]

/-- What an instruction does that writes `I` and advances: `I` holds the word, and everything else but `pc` and the
step's result is the same. -/
theorem finish_writeI_advance (s : State cfg) (w : Word) :
    ∃ t, finish .ok (s.writeI w).advance = .next t ∧ t.i = w ∧ SameRegsBut [] s t ∧ PcAdvances 2 s t ∧
      SameStack s t ∧ SameTimersKeys s t ∧ SameDisplay s t ∧ SameMemory s t ∧ t.fault = s.fault :=
  ⟨_, rfl, State.writeI_i s w, fun r _ => State.readV_writeI s w r, State.pcAddr_advance (s.writeI w),
    ⟨rfl, fun _ => rfl⟩, ⟨rfl, rfl, fun _ => rfl⟩, ⟨fun _ _ => rfl, rfl⟩, fun _ => rfl, rfl⟩

/-- Settles O47: the word is a packed one, and the instruction writes the operand, whose value its zero extension keeps,
and advances. -/
theorem setIndex : Obligations.SetIndex := by
  intro nnn s
  obtain ⟨t, hexec, hi, hframe⟩ := finish_writeI_advance s (addrOperand nnn)
  exact ⟨decode_packNNN_ldI nnn, t, hexec, hi ▸ addrOperand_toNat nnn, hframe⟩

end Sys2Proof.Machine
end

section
/-!
PROOFS. The decoder and the encoder (spec/30_encoding.md R75, R77, R78, R81): each is the other's inverse, exactly the
illegal words have no instruction, and decoding is the selection of the opcode map.
-/

namespace Sys2Proof

/-! ## Decoding what was encoded -/

theorem decode_family0 {w : Word} (hop : w.op = 0x0) (hcls : w ≠ 0x00E0) (hret : w ≠ 0x00EE) :
    decode w = .ok (.nop0 w.nnn) := by
  simp only [decode, hop, decodeFamily0]
  rw [if_neg hcls, if_neg hret]

theorem decode_packNNN_zero {nnn : Addr12} (h : (Instr.nop0 nnn).wellFormed = true) :
    decode (packNNN 0x0 nnn) = .ok (.nop0 nnn) := by
  have hnnn : (packNNN 0x0 nnn).nnn = nnn := packNNN_nnn (by decide) nnn
  simp only [Instr.wellFormed, Bool.and_eq_true, bne_iff_ne] at h
  have hcls : packNNN 0x0 nnn ≠ 0x00E0 := fun e => h.1 (by rw [← hnnn, e]; rfl)
  have hret : packNNN 0x0 nnn ≠ 0x00EE := fun e => h.2 (by rw [← hnnn, e]; rfl)
  rw [decode_family0 (packNNN_op (by decide) nnn) hcls hret, hnnn]

/-- The instructions go by the format of their word. -/
theorem decode_encode {i : Instr} (h : i.wellFormed = true) : decode (encode i) = .ok i := by
  cases i with
  | cls | ret => rfl
  | nop0 nnn => exact decode_packNNN_zero h
  | jp nnn | call nnn | ldI nnn | jpV0 nnn => simp [encode, decode, packNNN_op, packNNN_nnn]
  | seImm x kk | sneImm x kk | ldImm x kk | addImm x kk | rnd x kk =>
    simp [encode, decode, packXKK_op, packXKK_x, packXKK_kk]
  | skp x | sknp x => simp [encode, decode, decodeFamilyE, packXKK_op, packXKK_x, packXKK_kk]
  | ldVxDT x | ldVxK x | ldDTVx x | ldSTVx x | addI x =>
    simp [encode, decode, decodeFamilyF, packXKK_op, packXKK_x, packXKK_kk]
  | seReg x y | sneReg x y | drw x y n => simp [encode, decode, packXYN_op, packXYN_x, packXYN_y, packXYN_n]
  | ldReg x y | orReg x y | andReg x y | xorReg x y | addReg x y | subReg x y | shr x y | subnReg x y | shl x y =>
    simp [encode, decode, decodeFamily8, packXYN_op, packXYN_x, packXYN_y, packXYN_n]

theorem decodeBytes_eq_ok {hi lo : Byte} {i : Instr} {rest : List Byte} :
    decodeBytes (hi :: lo :: rest) = .ok (i, rest) ↔ decode (wordOfBytes hi lo) = .ok i := by
  cases h : decode (wordOfBytes hi lo) <;> simp [decodeBytes, h]

/-- Settles O1: by the format of the word, and the two bytes of a word are put together as that word. -/
theorem decodeOfEncode : Obligations.DecodeOfEncode := by
  intro i h
  refine ⟨decode_encode h, fun rest => decodeBytes_eq_ok.2 ?_⟩
  rw [wordOfBytes_bytes, decode_encode h]

/-! ## Encoding what was decoded: a word is the packing of its own fields -/

theorem packNNN_of_op {w : Word} {op : Nat} (hop : w.op = op) : packNNN op w.nnn = w := hop ▸ packNNN_self w

theorem packXKK_of_fields {w : Word} {op : Nat} {kk : Byte} (hop : w.op = op) (hkk : w.kk = kk) :
    packXKK op w.x kk = w := hop ▸ hkk ▸ packXKK_self w

theorem packXYN_of_fields {w : Word} {op : Nat} {n : Nibble} (hop : w.op = op) (hn : w.n = n) :
    packXYN op w.x w.y n = w := hop ▸ hn ▸ packXYN_self w

theorem encode_decodeFamily0 {w : Word} (hop : w.op = 0x0) :
    (decodeFamily0 w).wellFormed = true ∧ encode (decodeFamily0 w) = w := by
  have hself : packNNN 0x0 w.nnn = w := packNNN_of_op hop
  unfold decodeFamily0
  split_ifs with hcls hret
  · exact ⟨rfl, hcls.symm⟩
  · exact ⟨rfl, hret.symm⟩
  · refine ⟨?_, hself⟩
    simp only [Instr.wellFormed, Bool.and_eq_true, bne_iff_ne]
    exact ⟨fun e => hcls (by rw [← hself, e]; rfl), fun e => hret (by rw [← hself, e]; rfl)⟩

theorem encode_of_decodeFamily8 {w : Word} {i : Instr} (hop : w.op = 0x8) (h : decodeFamily8 w = .ok i) :
    i.wellFormed = true ∧ encode i = w := by
  unfold decodeFamily8 at h
  split at h <;> cases h <;> exact ⟨rfl, packXYN_of_fields hop (BitVec.eq_of_toNat_eq ‹_›)⟩

theorem encode_of_decodeFamilyE {w : Word} {i : Instr} (hop : w.op = 0xE) (h : decodeFamilyE w = .ok i) :
    i.wellFormed = true ∧ encode i = w := by
  unfold decodeFamilyE at h
  split_ifs at h with hkk hkk <;> cases h <;> exact ⟨rfl, packXKK_of_fields hop hkk⟩

theorem encode_of_decodeFamilyF {w : Word} {i : Instr} (hop : w.op = 0xF) (h : decodeFamilyF w = .ok i) :
    i.wellFormed = true ∧ encode i = w := by
  unfold decodeFamilyF at h
  split_ifs at h with hkk hkk hkk hkk hkk <;> cases h <;> exact ⟨rfl, packXKK_of_fields hop hkk⟩

/-- The sixteen families in order. -/
theorem encode_of_decode {w : Word} {i : Instr} (h : decode w = .ok i) : i.wellFormed = true ∧ encode i = w := by
  unfold decode at h
  split at h
  case h_1 hop => cases h; exact encode_decodeFamily0 hop
  case h_9 hop => exact encode_of_decodeFamily8 hop h
  case h_15 hop => exact encode_of_decodeFamilyE hop h
  case h_16 hop => exact encode_of_decodeFamilyF hop h
  case h_6 hop | h_10 hop =>
    split_ifs at h with hn
    cases h
    exact ⟨rfl, packXYN_of_fields hop hn⟩
  case h_2 hop | h_3 hop | h_11 hop | h_12 hop => cases h; exact ⟨rfl, packNNN_of_op hop⟩
  case h_4 hop | h_5 hop | h_7 hop | h_8 hop | h_13 hop => cases h; exact ⟨rfl, packXKK_of_fields hop rfl⟩
  case h_14 hop => cases h; exact ⟨rfl, packXYN_of_fields hop rfl⟩
  case h_17 => cases h

/-- Settles O2: family by family, the word is the packing of the fields the instruction took from it. -/
theorem encodeOfDecode : Obligations.EncodeOfDecode := fun _ _ => encode_of_decode

/-! ## The illegal words -/

theorem decodeFamily8_error_iff (w : Word) :
    decodeFamily8 w = .error (.unimplemented w) ↔ w.n.toNat ∈ [0x8, 0x9, 0xA, 0xB, 0xC, 0xD, 0xF] := by
  have := w.n.isLt
  unfold decodeFamily8
  split <;> simp_all
  omega

theorem decodeFamilyE_error_iff (w : Word) :
    decodeFamilyE w = .error (.unimplemented w) ↔ w.kk.toNat ∉ [0x9E, 0xA1] := by
  unfold decodeFamilyE
  split_ifs with h h <;> simp_all [← BitVec.toNat_inj]

theorem decodeFamilyF_error_iff (w : Word) :
    decodeFamilyF w = .error (.unimplemented w) ↔ w.kk.toNat ∉ [0x07, 0x0A, 0x15, 0x18, 0x1E] := by
  unfold decodeFamilyF
  split_ifs with h h <;> simp_all [← BitVec.toNat_inj]

theorem decode_error_iff (w : Word) : decode w = .error (.unimplemented w) ↔
    (w.op = 0x5 ∧ w.n.toNat ≠ 0) ∨ (w.op = 0x9 ∧ w.n.toNat ≠ 0) ∨
      (w.op = 0x8 ∧ w.n.toNat ∈ [0x8, 0x9, 0xA, 0xB, 0xC, 0xD, 0xF]) ∨
      (w.op = 0xE ∧ w.kk.toNat ∉ [0x9E, 0xA1]) ∨
      (w.op = 0xF ∧ w.kk.toNat ∉ [0x07, 0x0A, 0x15, 0x18, 0x1E]) := by
  have hn : w.n.toNat = 0 ↔ w.n = 0 := by rw [← BitVec.toNat_inj]; rfl
  rw [← decodeFamily8_error_iff, ← decodeFamilyE_error_iff, ← decodeFamilyF_error_iff, Ne, hn]
  obtain (h | h | h | h) | (h | h | h | h) | (h | h | h | h) | h | h | h | h := w.op_cases <;>
    simp [decode, h]

/-- Settles O3: family by family, with the fields written as remainders and quotients of the word. -/
theorem unimplementedWords : Obligations.UnimplementedWords := by
  intro w
  rw [← Word.op_eq, ← Word.n_toNat, ← Word.kk_toNat]
  exact decode_error_iff w

/-- Settles O6: the word is of family 0, and its low twelve bits are all of it. -/
theorem familyZeroIsNullAction : Obligations.FamilyZeroIsNullAction := by
  intro w hw hcls hret
  have hop : w.op = 0x0 := by rw [Word.op_eq]; omega
  exact ⟨w.nnn, decode_family0 hop hcls hret, by rw [Word.nnn_toNat]; omega⟩

/-- Settles O5: twenty words, each decoded by evaluation. -/
theorem sampleWordsDecode : Obligations.SampleWordsDecode := by
  unfold Obligations.SampleWordsDecode
  decide

/-! ## The opcode map -/

theorem encode_matches_row : ∀ i : Instr, Laws.EncodesItsRow.Statement i
  | .cls => Laws.EncodesItsRow.cls
  | .ret => Laws.EncodesItsRow.ret
  | .nop0 nnn => Laws.EncodesItsRow.nop0 nnn
  | .jp nnn => Laws.EncodesItsRow.jp nnn
  | .call nnn => Laws.EncodesItsRow.call nnn
  | .seImm x kk => Laws.EncodesItsRow.seImm x kk
  | .sneImm x kk => Laws.EncodesItsRow.sneImm x kk
  | .seReg x y => Laws.EncodesItsRow.seReg x y
  | .ldImm x kk => Laws.EncodesItsRow.ldImm x kk
  | .addImm x kk => Laws.EncodesItsRow.addImm x kk
  | .ldReg x y => Laws.EncodesItsRow.ldReg x y
  | .orReg x y => Laws.EncodesItsRow.orReg x y
  | .andReg x y => Laws.EncodesItsRow.andReg x y
  | .xorReg x y => Laws.EncodesItsRow.xorReg x y
  | .addReg x y => Laws.EncodesItsRow.addReg x y
  | .subReg x y => Laws.EncodesItsRow.subReg x y
  | .shr x y => Laws.EncodesItsRow.shr x y
  | .subnReg x y => Laws.EncodesItsRow.subnReg x y
  | .shl x y => Laws.EncodesItsRow.shl x y
  | .sneReg x y => Laws.EncodesItsRow.sneReg x y
  | .ldI nnn => Laws.EncodesItsRow.ldI nnn
  | .jpV0 nnn => Laws.EncodesItsRow.jpV0 nnn
  | .rnd x kk => Laws.EncodesItsRow.rnd x kk
  | .drw x y n => Laws.EncodesItsRow.drw x y n
  | .skp x => Laws.EncodesItsRow.skp x
  | .sknp x => Laws.EncodesItsRow.sknp x
  | .ldVxDT x => Laws.EncodesItsRow.ldVxDT x
  | .ldVxK x => Laws.EncodesItsRow.ldVxK x
  | .ldDTVx x => Laws.EncodesItsRow.ldDTVx x
  | .ldSTVx x => Laws.EncodesItsRow.ldSTVx x
  | .addI x => Laws.EncodesItsRow.addI x

/-- Two rows a word matches agree on the bits both fix. -/
theorem patterns_agree {r r' : OpcodeRow} {w : Word} (h : r.matches w = true) (h' : r'.matches w = true) :
    r.pattern &&& r'.mask = r'.pattern &&& r.mask := by
  rw [OpcodeRow.matches, beq_iff_eq] at h h'
  rw [← h, ← h', BitVec.and_assoc, BitVec.and_assoc, BitVec.and_comm r.mask]

/-- The map's overlaps: a row that agrees with another has the smaller mask, or is the row of `CLS` or `RET` where the
other is the null action's. -/
theorem opcodeMap_overlaps : ∀ r ∈ opcodeMap, ∀ r' ∈ opcodeMap, r.pattern &&& r'.mask = r'.pattern &&& r.mask →
    r = r' ∨ r.mask.toNat < r'.mask.toNat ∨
      (r' = ⟨0x0000, 0xF000⟩ ∧ (r = ⟨0x00E0, 0xFFFF⟩ ∨ r = ⟨0x00EE, 0xFFFF⟩)) := by
  decide

/-- The null action's row is no row of `CLS` or `RET`: those words decode to themselves. -/
theorem row_ne_of_exact_word {w : Word} {i : Instr} (h : decode w = .ok i) (hw : w = 0x00E0 ∨ w = 0x00EE) :
    i.row ≠ ⟨0x0000, 0xF000⟩ := by
  obtain rfl | rfl := hw
  · cases (show decode 0x00E0 = .ok .cls from rfl).symm.trans h; decide
  · cases (show decode 0x00EE = .ok .ret from rfl).symm.trans h; decide

/-- The row of the decoded instruction is the matching one with the greatest mask. -/
theorem row_of_decode {w : Word} {i : Instr} (h : decode w = .ok i) : i.row ∈ opcodeMap ∧ i.row.matches w = true ∧
    ∀ r ∈ opcodeMap, r.matches w = true → r = i.row ∨ r.mask.toNat < i.row.mask.toNat := by
  obtain ⟨hmatch, hmem⟩ := encode_matches_row i
  rw [(encode_of_decode h).2] at hmatch
  refine ⟨hmem, hmatch, fun r hr hrw => ?_⟩
  obtain heq | hlt | ⟨hnop, hexact⟩ := opcodeMap_overlaps r hr i.row hmem (patterns_agree hrw hmatch)
  · exact .inl heq
  · exact .inr hlt
  · refine absurd hnop (row_ne_of_exact_word h ?_)
    obtain rfl | rfl := hexact
    · exact .inl (OpcodeRow.matches_all.1 hrw)
    · exact .inr (OpcodeRow.matches_all.1 hrw)

/-- The decoder's one verdict names the word it was given (R84). -/
theorem decode_error {w : Word} {e : DecodeError} (h : decode w = .error e) : e = .unimplemented w := by
  simp only [decode, decodeFamily8, decodeFamilyE, decodeFamilyF] at h
  -- `cases` refutes the branches that answer an instruction; each of the others answers `.unimplemented w`.
  repeat' split at h
  all_goals cases h
  all_goals rfl

/-- No row of the map matches an illegal word (R78). -/
theorem not_matches_of_unimplemented {w : Word} (h : decode w = .error (.unimplemented w)) :
    ∀ r ∈ opcodeMap, ¬ r.matches w = true := by
  have hw := (unimplementedWords w).1 h
  simp only [List.mem_cons, List.not_mem_nil, or_false, not_or] at hw
  simp only [opcodeMap, List.forall_mem_append, List.forall_mem_cons, OpcodeRow.matches_family, OpcodeRow.matches_low4,
    OpcodeRow.matches_low8, OpcodeRow.matches_all, List.not_mem_nil, false_imp_iff, implies_true, and_true]
  simp only [← BitVec.toNat_inj, BitVec.ofNat_eq_ofNat, BitVec.toNat_ofNat]
  omega

/-- Settles O4: the overlaps of the map decide the selection, and a word no instruction has is matched by no row. -/
theorem decodeFollowsOpcodeMap : Obligations.DecodeFollowsOpcodeMap := by
  refine ⟨fun w i => row_of_decode, fun w ⟨r, hr, hrw⟩ => ?_⟩
  cases h : decode w with
  | ok i => exact ⟨i, rfl⟩
  | error e => exact absurd hrw (not_matches_of_unimplemented (decode_error h ▸ h) r hr)

end Sys2Proof
end

section
/-!
PROOFS. Memory, the fetch and the program load at any configuration (spec/20_memory.md R50 to R59, R66), and what reset
and the host's other moves leave in the state (spec/10_state.md R36, spec/60_exceptions.md R192 to R194).
-/

namespace Sys2Proof.Machine

variable {cfg : Params}

/-! ## Reads -/

theorem State.memRead_of_lt (s : State cfg) {a : Nat} (h : a < cfg.memSize) :
    s.memRead a = .ok (Memory.get cfg s.mem a) := by
  rw [State.memRead_eq, if_pos h]

theorem State.memRead_of_ge (s : State cfg) {a : Nat} (h : cfg.memSize ≤ a) :
    s.memRead a = .error (.memoryOutOfBounds a) := by
  rw [State.memRead_eq, if_neg (Nat.not_lt.2 h)]

theorem State.memRead_ok {s : State cfg} {a : Nat} {b : Byte} (h : s.memRead a = .ok b) :
    a < cfg.memSize ∧ Memory.get cfg s.mem a = b := by
  rw [State.memRead_eq] at h
  split_ifs at h with ha
  cases h
  exact ⟨ha, rfl⟩

/-- Where two memories hold the same byte, a read answers the same. -/
theorem State.memRead_congr {s t : State cfg} {a : Nat} (h : Memory.get cfg t.mem a = Memory.get cfg s.mem a) :
    t.memRead a = s.memRead a := by
  rw [State.memRead_eq, State.memRead_eq, h]

/-- Settles O8: by the bounds check of the read. -/
theorem byteReadChecksBounds : Obligations.ByteReadChecksBounds := by
  intro cfg s a
  split_ifs with h
  · exact s.memRead_of_ge h
  · exact ⟨_, s.memRead_of_lt (Nat.not_le.1 h)⟩

/-- Settles O7: by the order of the fetch's checks. -/
theorem fetchBigEndian : Obligations.FetchBigEndian := by
  intro cfg s
  rw [State.fetchWord_eq]
  split_ifs with hend hodd
  · rfl
  · rfl
  · exact ⟨_, _, _, rfl, s.memRead_of_lt (by omega), s.memRead_of_lt (by omega), wordOfBytes_toNat _ _⟩

/-! ## Writes -/

/-- Settles O9: from what a write does to the canonical form and to each address. -/
theorem memoryReadAfterWrite : Obligations.MemoryReadAfterWrite := by
  intro cfg s a b hwf ha
  refine ⟨State.memWrite_wf hwf a b, ?_, fun c hc => State.memRead_congr ?_⟩
  · rw [State.memRead_of_lt _ ha, State.memWrite_get hwf, if_pos ⟨rfl, ha⟩]
  · rw [State.memWrite_get hwf, if_neg fun h => hc h.1]

/-- A listed byte differs from what its address reads as unlisted, so the first addresses of two canonical memories that
read the same are the same. -/
theorem Memory.eq_of_get_eq {lo : Nat} {m m' : Memory} (hm : Memory.wfFrom cfg lo m = true)
    (hm' : Memory.wfFrom cfg lo m' = true)
    (h : ∀ a : Nat, a < cfg.memSize → Memory.get cfg m a = Memory.get cfg m' a) : m = m' := by
  induction m generalizing lo m' with
  | nil =>
    cases m' with
    | nil => rfl
    | cons e m' =>
      obtain ⟨k', b'⟩ := e
      obtain ⟨-, hk', hb', -⟩ := Memory.wfFrom_cons.1 hm'
      exact absurd (by simpa [Memory.get] using h k' hk') hb'.symm
  | cons e m ih =>
    obtain ⟨k, b⟩ := e
    obtain ⟨-, hk, hb, htail⟩ := Memory.wfFrom_cons.1 hm
    have hself : Memory.get cfg ((k, b) :: m) k = b := by simp [Memory.get]
    cases m' with
    | nil => exact absurd (hself.symm.trans (h k hk)) hb
    | cons e' m' =>
      obtain ⟨k', b'⟩ := e'
      obtain ⟨-, hk', hb', htail'⟩ := Memory.wfFrom_cons.1 hm'
      have hself' : Memory.get cfg ((k', b') :: m') k' = b' := by simp [Memory.get]
      obtain hlt | rfl | hgt := Nat.lt_trichotomy k k'
      · have hun := Memory.get_of_lt (Memory.wfFrom_cons.2 ⟨le_rfl, hk', hb', htail'⟩) hlt
        exact absurd (hself.symm.trans ((h k hk).trans hun)) hb
      · have hbb : b = b' := hself.symm.trans ((h k hk).trans hself')
        refine hbb ▸ congrArg _ (ih htail htail' fun a ha => ?_)
        by_cases hak : k = a
        · subst hak
          rw [Memory.get_of_lt htail (Nat.lt_succ_self k), Memory.get_of_lt htail' (Nat.lt_succ_self k)]
        · simpa [Memory.get, hak] using h a ha
      · have hun := Memory.get_of_lt (Memory.wfFrom_cons.2 ⟨le_rfl, hk, hb, htail⟩) hgt
        exact absurd (hself'.symm.trans ((h k' hk').symm.trans hun)) hb'

/-- Settles O10: two canonical lists that read the same are equal, by induction on both. -/
theorem memoryFormIsCanonical : Obligations.MemoryFormIsCanonical := fun _ _ _ => Memory.eq_of_get_eq

/-! ## The program load -/

theorem State.memWriteBytes_get_ge {s : State cfg} (hm : Memory.wf cfg s.mem = true) {a c : Nat} {bs : List Byte}
    (h : a + bs.length ≤ c) : Memory.get cfg (s.memWriteBytes a bs).mem c = Memory.get cfg s.mem c := by
  induction bs generalizing s a with
  | nil => rfl
  | cons b bs ih =>
    rw [List.length_cons] at h
    rw [State.memWriteBytes, ih (State.memWrite_wf hm a b) (by omega), State.memWrite_get hm, if_neg (by omega)]

/-- Byte `k` of a run of writes stands at the `k`-th address. -/
theorem State.memWriteBytes_get_add {s : State cfg} (hm : Memory.wf cfg s.mem = true) {a k : Nat} {bs : List Byte}
    (hk : k < bs.length) (hfit : a + bs.length ≤ cfg.memSize) :
    Memory.get cfg (s.memWriteBytes a bs).mem (a + k) = bs[k] := by
  induction bs generalizing s a k with
  | nil => cases hk
  | cons b bs ih =>
    rw [List.length_cons] at hk hfit
    cases k with
    | zero =>
      rw [State.memWriteBytes, State.memWriteBytes_get_lt (State.memWrite_wf hm a b) bs (by omega),
        State.memWrite_get hm, if_pos ⟨rfl, by omega⟩]
      rfl
    | succ k =>
      rw [State.memWriteBytes, show a + (k + 1) = a + 1 + k by omega,
        ih (State.memWrite_wf hm a b) (by omega) (by omega)]
      rfl

/-- Everything a load can do (R59, R200). -/
theorem State.load_cases (s : State cfg) (bs : List Byte) :
    (cfg.memSize < cfg.progStart + bs.length ∧ s.load bs = .error .loadTooLarge ∧ hostMove (.load bs) s = s) ∨
      (cfg.progStart + bs.length ≤ cfg.memSize ∧ s.load bs = .ok (s.memWriteBytes cfg.progStart bs) ∧
        hostMove (.load bs) s = s.memWriteBytes cfg.progStart bs) := by
  obtain ⟨-, -, hroom, -⟩ := cfg.consistent
  by_cases h : maxProgram cfg < bs.length
  · have hload : s.load bs = .error .loadTooLarge := if_pos h
    exact .inl ⟨by unfold maxProgram at h; omega, hload, by simp only [hostMove, hload]⟩
  · have hload : s.load bs = .ok (s.memWriteBytes cfg.progStart bs) := if_neg h
    exact .inr ⟨by unfold maxProgram at h; omega, hload, by simp only [hostMove, hload]⟩

/-- Settles O12: a run of writes from the program start, when it fits. -/
theorem loadCopiesProgram : Obligations.LoadCopiesProgram := by
  intro cfg s bs hwf
  obtain ⟨hbig, hload, hmove⟩ | ⟨hfit, hload, -⟩ := s.load_cases bs
  · exact ⟨fun _ => ⟨hload, hmove⟩, fun hfit => absurd hbig (Nat.not_lt.2 hfit)⟩
  · refine ⟨fun hbig => absurd hbig (Nat.not_lt.2 hfit), fun _ => ⟨_, hload, s.memWriteBytes_eq _ bs,
      State.memWriteBytes_wf hwf _ bs, fun k hk => ?_, fun a ha => State.memRead_congr ?_⟩⟩
    · rw [State.memRead_of_lt _ (by omega), State.memWriteBytes_get_add hwf hk hfit]
    · obtain hlow | hhigh := ha
      · exact State.memWriteBytes_get_lt hwf bs hlow
      · exact State.memWriteBytes_get_ge hwf hhigh

/-! ## Host moves -/

theorem hostMove_load (s : State cfg) (bs : List Byte) :
    hostMove (.load bs) s = { s with mem := (hostMove (.load bs) s).mem } := by
  obtain ⟨-, -, hmove⟩ | ⟨-, -, hmove⟩ := s.load_cases bs
  · rw [hmove]
  · rw [hmove]; exact s.memWriteBytes_eq _ bs

theorem hostMove_load_wf {s : State cfg} (hwf : Memory.wf cfg s.mem = true) (bs : List Byte) :
    Memory.wf cfg (hostMove (.load bs) s).mem = true := by
  obtain ⟨-, -, hmove⟩ | ⟨-, -, hmove⟩ := s.load_cases bs
  · rw [hmove]; exact hwf
  · rw [hmove]; exact State.memWriteBytes_wf hwf _ bs

theorem hostMove_load_get {s : State cfg} (hwf : Memory.wf cfg s.mem = true) (bs : List Byte) {a : Nat}
    (ha : a < cfg.progStart) : Memory.get cfg (hostMove (.load bs) s).mem a = Memory.get cfg s.mem a := by
  obtain ⟨-, -, hmove⟩ | ⟨-, -, hmove⟩ := s.load_cases bs
  · rw [hmove]
  · rw [hmove, State.memWriteBytes_get_lt hwf bs ha]

/-- Outside a reset the host changes keys, timers, the dirty flag and memory alone. -/
theorem hostMove_frame {m : HostMove} (s : State cfg) (h : m ≠ .reset) : hostMove m s = { s with
    key := (hostMove m s).key, dt := (hostMove m s).dt, st := (hostMove m s).st, dirty := (hostMove m s).dirty,
    mem := (hostMove m s).mem } := by
  cases m with
  | reset => exact absurd rfl h
  | load bs => rw [hostMove_load]
  | keySet k b => rfl
  | timerDec t => cases t <;> rfl
  | dirtyClear => rfl

theorem hostMove_fault {m : HostMove} (s : State cfg) (h : m ≠ .reset) : (hostMove m s).fault = s.fault := by
  rw [hostMove_frame s h]

theorem hostMove_get_low {m : HostMove} {s : State cfg} (h : m ≠ .reset) (hwf : Memory.wf cfg s.mem = true) {a : Nat}
    (ha : a < cfg.progStart) : Memory.get cfg (hostMove m s).mem a = Memory.get cfg s.mem a := by
  cases m with
  | load bs => exact hostMove_load_get hwf bs ha
  | _ => rw [hostMove_mem s h nofun]

theorem hostMove_dirty {m : HostMove} (s : State cfg) (h : m ≠ .reset) :
    (hostMove m s).dirty = s.dirty ∨ (m = .dirtyClear ∧ (hostMove m s).dirty = false) := by
  cases m with
  | reset => exact absurd rfl h
  | load bs => left; rw [hostMove_load]
  | keySet k b => exact .inl rfl
  | timerDec t => exact .inl (State.timerDec_dirty s t)
  | dirtyClear => exact .inr ⟨rfl, rfl⟩

theorem hostMove_keyDown {m : HostMove} (s : State cfg) (h : m ≠ .reset) (k : KeyIdx) :
    (hostMove m s).keyDown k = s.keyDown k ∨ ∃ b, m = .keySet k b ∧ (hostMove m s).keyDown k = b := by
  cases m with
  | reset => exact absurd rfl h
  | load bs => left; rw [hostMove_load]; rfl
  | keySet j b =>
    have hkey := State.keyDown_keySet s j k b
    by_cases hkj : k = j
    · rw [if_pos hkj] at hkey; exact .inr ⟨b, hkj ▸ rfl, hkey⟩
    · rw [if_neg hkj] at hkey; exact .inl hkey
  | timerDec t => cases t <;> exact .inl rfl
  | dirtyClear => exact .inl rfl

/-- A countdown takes one and stops at 0 (R193). -/
theorem countDown_toNat (t : Byte) : (countDown t).toNat = t.toNat - 1 := by
  unfold countDown
  split_ifs with h
  · rw [h]; rfl
  · rw [BitVec.toNat_sub_of_le (by bv_omega)]; rfl

theorem hostMove_dt {m : HostMove} (s : State cfg) (h : m ≠ .reset) :
    (hostMove m s).dt = s.dt ∨ (m = .timerDec .dt ∧ (hostMove m s).dt.toNat = s.dt.toNat - 1) := by
  cases m with
  | reset => exact absurd rfl h
  | load bs => left; rw [hostMove_load]
  | keySet k b => exact .inl rfl
  | timerDec t =>
    cases t with
    | dt => exact .inr ⟨rfl, countDown_toNat s.dt⟩
    | st => exact .inl rfl
  | dirtyClear => exact .inl rfl

theorem hostMove_st {m : HostMove} (s : State cfg) (h : m ≠ .reset) :
    (hostMove m s).st = s.st ∨ (m = .timerDec .st ∧ (hostMove m s).st.toNat = s.st.toNat - 1) := by
  cases m with
  | reset => exact absurd rfl h
  | load bs => left; rw [hostMove_load]
  | keySet k b => exact .inl rfl
  | timerDec t =>
    cases t with
    | dt => exact .inl rfl
    | st => exact .inr ⟨rfl, countDown_toNat s.st⟩
  | dirtyClear => exact .inl rfl

/-- Settles O58: what each small move does, and what the frame of the host's moves leaves to them. -/
theorem hostMovesAreLimited : Obligations.HostMovesAreLimited := by
  refine ⟨fun s => ⟨fun k b => (State.keyDown_keySet s k k b).trans (if_pos rfl), countDown_toNat s.dt,
    countDown_toNat s.st, rfl⟩, fun m s hm hwf => ?_⟩
  have hframe := hostMove_frame s hm
  exact ⟨fun r _ => by rw [hframe]; rfl, by rw [hframe], by rw [hframe], by rw [hframe],
    ⟨by rw [hframe], fun k => by rw [hframe]⟩, by rw [hframe], hostMove_fault s hm, hostMove_dirty s hm,
    fun a ha => State.memRead_congr (hostMove_get_low hm hwf ha), hostMove_mem s hm, hostMove_keyDown s hm,
    hostMove_dt s hm, hostMove_st s hm⟩

/-! ## Reset and the parameters -/

/-- Settles O13: each piece of state is seen from the reset state, and memory lists nothing. -/
theorem resetState : Obligations.ResetState := by
  have hread (a : Nat) (ha : a < 4096) : State.reset.memRead a = .ok (Memory.unlisted Config.params a) :=
    State.memRead_of_lt _ ha
  refine ⟨fun r => ?_, rfl, rfl, rfl, rfl, fun k => ?_, rfl, rfl, fun k => ?_,
    fun r c => Display.pixel_blank (cfg := Config.params) r c, rfl, fun a ha => ?_, fun a h80 ha => ?_, rfl,
    fun s => rfl⟩
  · simp [State.reset, State.resetAt, State.readV]
  · simp [State.reset, State.resetAt]
  · simp [State.reset, State.resetAt, State.keyDown]
  · rw [hread a (by omega)]; simp [Memory.unlisted, ha]
  · rw [hread a ha]; simp [Memory.unlisted, Nat.not_lt.2 h80]

/-- Settles O14: the constraints are a field of every configuration, and any values that meet them make one. -/
theorem parametersConsistent : Obligations.ParametersConsistent :=
  ⟨fun cfg => cfg.consistent,
    fun mem prog depth w h font h1 h2 h3 h4 h5 h6 h7 h8 =>
      ⟨⟨mem, prog, depth, w, h, font, h1, h2, h3, h4, h5, h6, h7, h8⟩, rfl, rfl, rfl, rfl, rfl, rfl⟩,
    ⟨rfl, rfl, rfl, rfl, rfl, rfl⟩, rfl, execAt_eq_exec, stepAt_eq_step⟩

end Sys2Proof.Machine
end

section
/-!
PROOFS. What an instruction can do, said once at any configuration: the fault it raises, and otherwise its result, its
program counter and its write columns (spec/40_step_cycle.md R93, R94, R96; spec/10_state.md R34). Every statement about
all instructions or about the step follows from these.
-/

namespace Sys2Proof.Machine

variable {cfg : Params}

/-! ## The fault of an instruction -/

/-- The fault an operation ends in, where it ends in one. -/
def raised {α : Type} : Except Fault α → Option Fault
  | .ok _ => none
  | .error f => some f

/-- The fault an instruction raises from a state, where it raises one (R181, R182, R183, R186). -/
def instrFault (s : State cfg) : Instr → Option Fault
  | .ret => raised s.pop
  | .call _ => raised s.push
  | .drw _ _ n => raised (s.readSprite s.i n.toNat 0)
  | .skp x | .sknp x => raised (keyOperand (s.readV x))
  | _ => none

theorem raised_eq_some {α : Type} {r : Except Fault α} {f : Fault} : raised r = some f ↔ r = .error f := by
  cases r <;> simp [raised]

theorem raised_eq_none {α : Type} {r : Except Fault α} : raised r = none ↔ ∃ a, r = .ok a := by
  cases r <;> simp [raised]

theorem execAt_of_fault {i : Instr} {s : State cfg} {f : Fault} (h : instrFault s i = some f) :
    execAt i s = .next { s with fault := some f, lastResult := some (.err f) } := by
  cases i with
  | ret => simp [execAt, execRet, raised_eq_some.1 h, raise_eq]
  | call nnn => simp [execAt, execCall, raised_eq_some.1 h, Except.map, raise_eq]
  | drw x y n => simp [execAt, execDrw, raised_eq_some.1 h, Except.map, raise_eq]
  | skp x => simp [execAt, execSkp, raised_eq_some.1 h, Except.map, raise_eq]
  | sknp x => simp [execAt, execSknp, raised_eq_some.1 h, Except.map, raise_eq]
  | _ => cases h

/-! ## An instruction that raises none -/

/-- What holds of the next state of an instruction that raises no fault. The frames are the write columns of R34, and
most are seen from the updates alone. -/
structure Completes (i : Instr) (s t : State cfg) : Prop where
  pc : t.pcAddr = nextPc s i
  result : t.lastResult = some (okResult s i) := by simp [okResult]
  latch : t.fault = s.fault := by simp
  key : t.key = s.key := by simp
  index : (∀ nnn, i ≠ .ldI nnn) → (∀ x, i ≠ .addI x) → t.i = s.i := by simp
  stack : (∀ nnn, i ≠ .call nnn) → t.stack = s.stack := by simp
  sp : (∀ nnn, i ≠ .call nnn) → i ≠ .ret → t.sp = s.sp := by simp
  pushed : ∀ nnn, i = .call nnn → t.sp.val = s.sp.val + 1 ∧ t.stack = s.stack.set s.sp s.pc := by simp
  popped : i = .ret → t.sp.val + 1 = s.sp.val := by simp
  dt : (∀ x, i ≠ .ldDTVx x) → t.dt = s.dt := by simp
  st : (∀ x, i ≠ .ldSTVx x) → t.st = s.st := by simp
  disp : i ≠ .cls → (∀ x y n, i ≠ .drw x y n) → t.disp = s.disp := by simp
  dirty : i ≠ .cls → (∀ x y n, i ≠ .drw x y n) → t.dirty = s.dirty := by simp
  draws : (∀ x kk, i ≠ .rnd x kk) → t.draws = s.draws := by simp

/-- The smallest pressed key decides a key wait. -/
theorem execLdVxK_cases (x : RegIdx) (s : State cfg) :
    (∃ k, s.firstKey = some k ∧ execLdVxK x s = finish .ok (s.writeV x (BitVec.ofNat 8 k.val)).advance) ∨
      (s.firstKey = none ∧ execLdVxK x s = finish .waiting s) := by
  cases hk : s.firstKey with
  | none => exact .inr ⟨rfl, by simp only [execLdVxK, hk]⟩
  | some k => exact .inl ⟨k, rfl, by simp only [execLdVxK, hk]⟩

/-- The key a register selects is down, as R93's table says it. -/
theorem keyDown_iff_exists {s : State cfg} {k : KeyIdx} {b : Byte} (hk : k.val = b.toNat) :
    s.keyDown k = true ↔ ∃ j : KeyIdx, j.val = b.toNat ∧ s.keyDown j = true :=
  ⟨fun h => ⟨k, hk, h⟩, fun ⟨_, hj, h⟩ => Fin.ext (hj.trans hk.symm) ▸ h⟩

theorem keyOperand_val {b : Byte} {k : KeyIdx} (h : keyOperand b = .ok k) : k.val = b.toNat := by
  unfold keyOperand at h
  split at h
  · cases h; rfl
  · cases h

theorem finishOr_map_of_ok {α : Type} {r : Except Fault α} {a : α} (h : r = .ok a) (f : α → State cfg) (s : State cfg) :
    finishOr s (r.map f) = .next { f a with lastResult := some .ok } := by
  rw [h]; rfl

/-- The instructions go by their end: those that may fault, the key wait, and by how they leave the program counter. -/
theorem execAt_completes {i : Instr} {s : State cfg} (h : instrFault s i = none) :
    ∃ t, execAt i s = .next t ∧ Completes i s t := by
  cases i with
  | ret =>
    by_cases hsp : s.sp.val = 0
    · rw [instrFault, State.pop_error hsp] at h; cases h
    · exact ⟨_, by rw [execAt, execRet, State.pop_ok hsp]; rfl,
        { pc := by simp [State.pcAddr, nextPc], popped := by simp; omega }⟩
  | call nnn =>
    by_cases hsp : s.sp.val + 1 < cfg.stackDepth
    · exact ⟨_, finishOr_map_of_ok (State.push_ok hsp) _ s,
        { pc := by simp [State.pcAddr, nextPc] }⟩
    · rw [instrFault, State.push_error hsp] at h; cases h
  | drw x y n =>
    obtain ⟨sprite, hsprite⟩ := raised_eq_none.1 h
    exact ⟨_, finishOr_map_of_ok hsprite _ s, { pc := State.pcAddr_advance _ }⟩
  | skp x =>
    obtain ⟨k, hk⟩ := raised_eq_none.1 h
    exact ⟨_, finishOr_map_of_ok hk _ s,
      { pc := (State.pcAddr_skipWhen _ _).trans (by simp [nextPc, keyDown_iff_exists (keyOperand_val hk)]) }⟩
  | sknp x =>
    obtain ⟨k, hk⟩ := raised_eq_none.1 h
    exact ⟨_, finishOr_map_of_ok hk _ s,
      { pc := (State.pcAddr_skipWhen _ _).trans (by
        cases hdown : s.keyDown k <;> simp [nextPc, ← keyDown_iff_exists (keyOperand_val hk), hdown]) }⟩
  | ldVxK x =>
    obtain ⟨k, hk, hexec⟩ | ⟨hk, hexec⟩ := execLdVxK_cases x s
    · exact ⟨_, hexec, { pc := (State.pcAddr_advance _).trans (by simp [nextPc, hk]),
                         result := by simp [okResult, hk] }⟩
    · exact ⟨_, hexec, { pc := by simp [nextPc, hk], result := by simp [okResult, hk] }⟩
  | jp nnn => exact ⟨_, rfl, { pc := (State.pcAddr_jump s _).trans (addrOperand_toNat nnn) }⟩
  | jpV0 nnn => exact ⟨_, rfl, { pc := (State.pcAddr_jump s _).trans (offsetTarget_toNat nnn _) }⟩
  | seImm x kk | sneImm x kk | seReg x y | sneReg x y =>
    exact ⟨_, rfl, { pc := (State.pcAddr_skipWhen _ _).trans (by simp [nextPc]) }⟩
  | _ => exact ⟨_, rfl, { pc := State.pcAddr_advance _ }⟩

end Sys2Proof.Machine
end

section
/-!
PROOFS. What the step can do, and the statements about all instructions at once that follow from it
(spec/40_step_cycle.md R91 to R96; spec/60_exceptions.md R180 to R189; spec/10_state.md R21, R34).
-/

namespace Sys2Proof.Machine

variable {cfg : Params}

/-! ## The step of a running core -/

/-- The fault a running core's step raises, where it raises one: of the fetch, the decoder or the instruction. -/
def stepFault (s : State cfg) : Option Fault :=
  match s.fetchInstr with
  | .error f => some f
  | .ok i => instrFault s i

theorem stepFault_eq_some {s : State cfg} {f : Fault} :
    stepFault s = some f ↔ s.fetchInstr = .error f ∨ ∃ i, s.fetchInstr = .ok i ∧ instrFault s i = some f := by
  unfold stepFault
  cases s.fetchInstr <;> simp

theorem stepAt_of_fault {s : State cfg} {f : Fault} (hs : Running s) (h : stepFault s = some f) :
    stepAt s = .next { s with fault := some f, lastResult := some (.err f) } := by
  obtain hfetch | ⟨i, hfetch, hi⟩ := stepFault_eq_some.1 h
  · exact stepWith_fetchError hs hfetch
  · exact (stepWith_running hs hfetch).trans (execAt_of_fault hi)

theorem stepAt_completes {s : State cfg} (hs : Running s) (h : stepFault s = none) :
    ∃ i t, s.fetchInstr = .ok i ∧ stepAt s = .next t ∧ Completes i s t := by
  unfold stepFault at h
  cases hfetch : s.fetchInstr with
  | error f => rw [hfetch] at h; cases h
  | ok i =>
    rw [hfetch] at h
    obtain ⟨t, hexec, ht⟩ := execAt_completes h
    exact ⟨i, t, rfl, (stepWith_running hs hfetch).trans hexec, ht⟩

/-- Everything an instruction can do. -/
theorem execAt_cases (i : Instr) (s : State cfg) :
    (∃ f, instrFault s i = some f ∧ execAt i s = .next { s with fault := some f, lastResult := some (.err f) }) ∨
      ∃ t, instrFault s i = none ∧ execAt i s = .next t ∧ Completes i s t := by
  cases h : instrFault s i with
  | some f => exact .inl ⟨f, rfl, execAt_of_fault h⟩
  | none =>
    obtain ⟨t, ht⟩ := execAt_completes h
    exact .inr ⟨t, rfl, ht⟩

/-- An instruction on a running core that ends with no fault has completed. -/
theorem completes_of_exec {i : Instr} {s t : State cfg} (h : execAt i s = .next t) (ht : Running t) :
    Completes i s t := by
  obtain ⟨f, -, hexec⟩ | ⟨u, -, hexec, hu⟩ := execAt_cases i s
  · rw [hexec] at h; cases h; cases ht
  · rw [hexec] at h; cases h; exact hu

/-! ## The step in general -/

/-- Settles O19: the two bytes are the fetched word, and it decodes to the instruction. -/
theorem stepRunsDecodedInstruction : Obligations.StepRunsDecodedInstruction := by
  intro s hi lo i rest hs heven hhi hlo hdecode
  obtain ⟨-, rfl⟩ := State.memRead_ok hhi
  obtain ⟨hend, rfl⟩ := State.memRead_ok hlo
  have hfetch := s.fetchWord_eq
  rw [if_neg (by omega), if_neg (by omega)] at hfetch
  exact step_running hs (State.fetchInstr_of_decode hfetch (decodeBytes_eq_ok.1 hdecode))

theorem execAt_answers (i : Instr) (s : State cfg) : ∃ t, execAt i s = .next t := by
  obtain ⟨f, -, h⟩ | ⟨t, -, h, -⟩ := execAt_cases i s
  · exact ⟨_, h⟩
  · exact ⟨t, h⟩

/-- Settles O20: an instruction faults or completes, and a step repeats a fault, raises one or runs an instruction. -/
theorem stepAnswersAState : Obligations.StepAnswersAState := by
  have hexec (i : Instr) (s : State) : ∃ t, exec i s = .next t := execAt_eq_exec i s ▸ execAt_answers i s
  refine ⟨fun s => ?_, hexec⟩
  obtain ⟨f, -, h⟩ | ⟨f, -, -, h⟩ | ⟨i, -, -, h⟩ := step_cases s
  · exact ⟨_, h⟩
  · exact ⟨_, h⟩
  · rw [h]; exact hexec i s

/-- Settles O21: the first check of every step. -/
theorem haltedCoreRepeatsFault : Obligations.HaltedCoreRepeatsFault := fun _ _ => step_halted

/-- Settles O22: a step of a halted core repeats the fault, a reset clears it, and no other host move touches it. -/
theorem onlyResetClearsFault : Obligations.OnlyResetClearsFault := by
  intro m s t f hf h
  cases m with
  | core =>
    rw [applyMove, stepAt, stepWith_halted hf] at h
    cases h
    exact .inr ⟨nofun, hf⟩
  | host m =>
    cases h
    by_cases hm : m = .reset
    · subst hm; exact .inl ⟨rfl, rfl⟩
    · exact .inr ⟨fun e => hm (Move.host.inj e), (hostMove_fault s hm).trans hf⟩

/-- Settles O23: a step that completes latches nothing, so this one went through the fault entry. -/
theorem faultsArePrecise : Obligations.FaultsArePrecise := by
  intro s t f hs h ht
  rw [← stepAt_eq_step] at h
  cases hfault : stepFault s with
  | some g => rw [stepAt_of_fault hs hfault] at h; cases h; cases ht; rfl
  | none =>
    obtain ⟨i, u, -, hstep, hu⟩ := stepAt_completes hs hfault
    rw [hstep] at h
    cases h
    rw [hu.latch, hs] at ht
    cases ht

/-- Settles O25: an instruction that ends with no fault has completed. -/
theorem pcFollowsDisciplines : Obligations.PcFollowsDisciplines :=
  fun i s _ _ h ht => (completes_of_exec ((execAt_eq_exec i s).trans h) ht).pc

/-- Settles O26: the instruction fetched faults or completes. -/
theorem stepReportsResult : Obligations.StepReportsResult := by
  intro i s t hs hfetch h
  rw [step_running hs hfetch, ← execAt_eq_exec] at h
  obtain ⟨f, -, hexec⟩ | ⟨u, -, hexec, hu⟩ := execAt_cases i s
  · rw [hexec] at h; cases h; exact .inr ⟨f, rfl, rfl⟩
  · rw [hexec] at h; cases h; exact .inl ⟨hu.latch.trans hs, hu.result⟩

/-! ## What an instruction leaves unchanged -/

theorem sameMemory_of_mem {s t : State cfg} (h : t.mem = s.mem) : SameMemory s t := fun a => by
  simp only [State.memRead, h]

/-- Settles O27: an instruction that faults changes the latch and the result alone, one that completes has its write
columns. -/
theorem instructionFrames : Obligations.InstructionFrames := by
  intro i s t h
  have hregs := exec_regs h
  have hmem := sameMemory_of_mem (exec_mem h)
  rw [← execAt_eq_exec] at h
  obtain ⟨f, -, hexec⟩ | ⟨u, -, hexec, hu⟩ := execAt_cases i s
  · rw [hexec] at h
    cases h
    exact ⟨hregs, hmem, fun _ => rfl, fun _ _ => rfl, fun _ _ => rfl, fun _ _ => rfl, fun _ _ _ _ => rfl, fun _ => rfl,
      fun _ => rfl, fun _ _ => ⟨fun _ _ => rfl, rfl⟩, fun _ => rfl⟩
  · rw [hexec] at h
    cases h
    refine ⟨hregs, hmem, fun k => ?_, hu.index, fun hi k => ?_, hu.sp, fun nnn hi k hk => ?_, hu.dt, hu.st,
      fun hcls hdrw => ⟨fun r c => ?_, hu.dirty hcls hdrw⟩, hu.draws⟩
    · rw [State.keyDown, hu.key]; rfl
    · rw [hu.stack hi]
    · rw [(hu.pushed nnn hi).2]
      exact Vector.getElem_set_ne _ _ fun e => hk (Fin.ext e.symm)
    · rw [hu.disp hcls hdrw]

theorem flagByte_eq_zero_or_one (b : Bool) : flagByte b = 0 ∨ flagByte b = 1 := by cases b <;> simp [flagByte]

theorem finish_flag {r : StepResult} {u t : State cfg} {b : Bool} (h : finish r u = .next t)
    (hu : u.readV flagReg = flagByte b) : t.readV flagReg = 0 ∨ t.readV flagReg = 1 := by
  rw [finish_eq_next] at h
  subst h
  exact (show u.readV flagReg = _ from hu) ▸ flagByte_eq_zero_or_one b

/-- Settles O29: five write a result and then the flag, a draw that is no fault writes the flag of its canvas. -/
theorem flagIsZeroOrOne : Obligations.FlagIsZeroOrOne := by
  intro i s t hs h ht hflag
  cases i with
  | addReg x y | subReg x y | subnReg x y | shr x y | shl x y =>
    exact finish_flag h ((State.readV_advance _ _).trans (State.readV_writeFlag_flag _ _))
  | drw x y n =>
    simp only [exec, execDrw] at h
    cases hsprite : s.readSprite s.i n.toNat 0 with
    | ok sprite =>
      rw [hsprite] at h
      exact finish_flag h ((State.readV_advance _ _).trans (State.readV_writeFlag_flag _ _))
    | error f => rw [hsprite] at h; cases h; cases ht
  | _ => cases hflag

/-! ## The causes of the faults -/

/-- Where some row's address does not exist, there is a lowest such row. -/
theorem exists_lowest_bad_row {base : Word} {n : Nat} (h : ¬ ∀ r : Nat, r < n → rowAddr base r < cfg.memSize) :
    ∃ r, r < n ∧ cfg.memSize ≤ rowAddr base r ∧ ∀ r' : Nat, r' < r → rowAddr base r' < cfg.memSize := by
  push Not at h
  obtain ⟨hr, hbad⟩ := Nat.find_spec h
  refine ⟨Nat.find h, hr, hbad, fun r' hr' => ?_⟩
  have := Nat.find_min h hr'
  omega

theorem State.readSprite_error_iff {s : State cfg} {base : Word} {n : Nat} {f : Fault} :
    s.readSprite base n 0 = .error f ↔ ∃ r, r < n ∧ f = .memoryOutOfBounds (rowAddr base r) ∧
      cfg.memSize ≤ rowAddr base r ∧ ∀ r' : Nat, r' < r → rowAddr base r' < cfg.memSize := by
  have herror {r : Nat} (hr : r < n) (hbad : cfg.memSize ≤ rowAddr base r)
      (hlow : ∀ r' : Nat, r' < r → rowAddr base r' < cfg.memSize) :
      s.readSprite base n 0 = .error (.memoryOutOfBounds (rowAddr base r)) :=
    State.readSprite_error (Nat.zero_le r) (by omega) (fun j _ hj => hlow j hj) hbad
  constructor
  · intro h
    by_cases hall : ∀ r : Nat, r < n → rowAddr base r < cfg.memSize
    · rw [State.readSprite_ok fun r _ hr => hall r (by omega)] at h; cases h
    · obtain ⟨r, hr, hbad, hlow⟩ := exists_lowest_bad_row hall
      cases (herror hr hbad hlow).symm.trans h
      exact ⟨r, hr, rfl, hbad, hlow⟩
  · rintro ⟨r, hr, rfl, hbad, hlow⟩
    exact herror hr hbad hlow

theorem State.pop_error_iff {s : State cfg} {f : Fault} :
    s.pop = .error f ↔ f = .stackUnderflow ∧ s.sp.val = 0 := by
  by_cases h : s.sp.val = 0
  · simp [State.pop_error h, h, eq_comm]
  · simp [State.pop_ok h, h]

theorem State.push_error_iff {s : State cfg} {f : Fault} :
    s.push = .error f ↔ f = .stackOverflow ∧ s.sp.val = cfg.stackDepth - 1 := by
  have := s.sp.isLt
  by_cases h : s.sp.val + 1 < cfg.stackDepth
  · simp [State.push_ok h, show s.sp.val ≠ cfg.stackDepth - 1 by omega]
  · simp [State.push_error h, show s.sp.val = cfg.stackDepth - 1 by omega, eq_comm]

theorem keyOperand_error_iff {b : Byte} {f : Fault} :
    keyOperand b = .error f ↔ f = .keyIndexOutOfRange b ∧ 15 < b.toNat := by
  by_cases h : b.toNat < 16
  · simp [keyOperand_ok h, show ¬ 15 < b.toNat by omega]
  · simp [keyOperand_error (show 15 < b.toNat by omega), show 15 < b.toNat by omega, eq_comm]

/-- The faults of the instructions: a return, a call, a draw and the two key skips raise one each. -/
theorem instrFault_iff {s : State cfg} {i : Instr} {f : Fault} : instrFault s i = some f ↔
    (i = .ret ∧ f = .stackUnderflow ∧ s.sp.val = 0) ∨
    (∃ nnn, i = .call nnn ∧ f = .stackOverflow ∧ s.sp.val = cfg.stackDepth - 1) ∨
    (∃ x y n r, i = .drw x y n ∧ r < n.toNat ∧ f = .memoryOutOfBounds (s.i.toNat + r) ∧ cfg.memSize ≤ s.i.toNat + r ∧
      ∀ r' : Nat, r' < r → s.i.toNat + r' < cfg.memSize) ∨
    ∃ x, (i = .skp x ∨ i = .sknp x) ∧ f = .keyIndexOutOfRange (s.readV x) ∧ 15 < (s.readV x).toNat := by
  cases i with
  | ret => simp [instrFault, raised_eq_some, State.pop_error_iff]
  | call nnn => simp [instrFault, raised_eq_some, State.push_error_iff]
  | drw x y n => simp [instrFault, raised_eq_some, State.readSprite_error_iff, rowAddr]
  | skp x | sknp x => simp [instrFault, raised_eq_some, keyOperand_error_iff]
  | _ => simp [instrFault]

/-- The faults of the fetch and the decoder, in their order. -/
theorem State.fetchInstr_error_iff {s : State cfg} {f : Fault} : s.fetchInstr = .error f ↔
    (f = .memoryOutOfBounds (s.pcAddr + 1) ∧ cfg.memSize ≤ s.pcAddr + 1) ∨
    (f = .misalignedPc s.pc ∧ s.pcAddr % 2 = 1 ∧ s.pcAddr + 1 < cfg.memSize) ∨
    ∃ w, f = .unimplementedOpcode w ∧ s.fetchWord = .ok w ∧ decode w = .error (.unimplemented w) := by
  constructor
  · intro h
    obtain hw | ⟨w, e, hw, he, rfl⟩ := State.fetchInstr_error h
    · rw [State.fetchWord_eq] at hw
      split_ifs at hw with hend hodd
      · cases hw; exact .inl ⟨rfl, hend⟩
      · cases hw; exact .inr (.inl ⟨rfl, hodd, by omega⟩)
    · exact .inr (.inr ⟨w, rfl, hw, decode_error he ▸ he⟩)
  · rintro (⟨rfl, hend⟩ | ⟨rfl, hodd, hend⟩ | ⟨w, rfl, hw, he⟩)
    · simp [State.fetchInstr, State.fetchWord_eq, hend]
    · simp [State.fetchInstr, State.fetchWord_eq, Nat.not_le.2 hend, hodd]
    · simp [State.fetchInstr, hw, he]

/-- The causes of R180 to R187 are those of the fetch, the decoder and the instruction. -/
theorem faultCause_iff {s : State cfg} {f : Fault} : FaultCause s f ↔ stepFault s = some f := by
  rw [stepFault_eq_some, State.fetchInstr_error_iff]
  simp only [instrFault_iff]
  cases f with
  | memoryOutOfBounds a =>
    simp only [FaultCause, reduceCtorEq, Fault.memoryOutOfBounds.injEq, and_comm, false_and, exists_false, or_false,
      false_or]
    refine or_congr_right ⟨?_, ?_⟩
    · rintro ⟨x, y, n, r, hfetch, hr, rfl, hbad, hlow⟩
      exact ⟨_, hfetch, x, y, n, r, rfl, hr, rfl, hbad, hlow⟩
    · rintro ⟨_, hfetch, x, y, n, r, rfl, hr, rfl, hbad, hlow⟩
      exact ⟨x, y, n, r, hfetch, hr, rfl, hbad, hlow⟩
  | stackOverflow => simp [FaultCause]
  | stackUnderflow => simp [FaultCause]
  | unimplementedOpcode w => simp [FaultCause]
  | misalignedPc p => simp [FaultCause]
  | keyIndexOutOfRange b =>
    simp only [FaultCause, reduceCtorEq, Fault.keyIndexOutOfRange.injEq, and_false, false_and, exists_false, false_or]
    constructor
    · rintro ⟨x, hfetch | hfetch, rfl, hb⟩
      · exact ⟨_, hfetch, x, .inl rfl, rfl, hb⟩
      · exact ⟨_, hfetch, x, .inr rfl, rfl, hb⟩
    · rintro ⟨i, hfetch, x, rfl | rfl, rfl, hb⟩
      · exact ⟨x, .inl hfetch, rfl, hb⟩
      · exact ⟨x, .inr hfetch, rfl, hb⟩

/-- Settles O24: a step with a cause latches that fault, and one without any completes and latches nothing. -/
theorem faultsHaveTheirCauses : Obligations.FaultsHaveTheirCauses := by
  intro s f hs
  rw [faultCause_iff, ← stepAt_eq_step]
  cases hfault : stepFault s with
  | some g => simp [stepAt_of_fault hs hfault]
  | none =>
    obtain ⟨i, t, -, hstep, ht⟩ := stepAt_completes hs hfault
    simp [hstep, ht.latch.trans hs]

/-! ## The end of memory and the delay timer -/

/-- Settles O37: a step that completes leaves the whole program counter of R93's table, and the next fetch checks it. -/
theorem runningOffTheEndFaults : Obligations.RunningOffTheEndFaults := by
  refine ⟨stepAt_eq_step, fun cfg s t i hs hfetch hstep ht => ?_⟩
  have hpc : t.pcAddr = nextPc s i :=
    (completes_of_exec ((stepWith_running hs hfetch).symm.trans hstep) ht).pc
  exact ⟨fun hend => stepWith_fetchError ht (State.fetchInstr_error_iff.2 (.inl ⟨rfl, hend⟩)),
    fun hlast hnext => by omega, fun hlast hnext => by omega⟩

theorem stepAt_dt {s t : State cfg} (hload : Running s → ∀ x, s.fetchInstr ≠ .ok (.ldDTVx x)) (h : stepAt s = .next t) :
    t.dt = s.dt := by
  obtain ⟨f, -, hstep⟩ | ⟨f, -, -, hstep⟩ | ⟨i, hs, hfetch, hstep⟩ := stepWith_cases execAt s
  · cases hstep.symm.trans h; rfl
  · cases hstep.symm.trans h; rfl
  · obtain ⟨f, -, hexec⟩ | ⟨u, -, hexec, hu⟩ := execAt_cases i s
    · cases hexec.symm.trans (hstep.symm.trans h); rfl
    · cases hexec.symm.trans (hstep.symm.trans h)
      exact hu.dt fun x hi => hload hs x (hi ▸ hfetch)

/-- Settles O57: a step keeps the delay timer, and so do the host's moves but a countdown, which takes one from it. -/
theorem delayTimerNeverRises : Obligations.DelayTimerNeverRises := by
  intro m s t h hreset hload
  cases m with
  | core => rw [stepAt_dt (hload rfl) h]
  | host m =>
    cases h
    obtain hdt | ⟨-, hdt⟩ := hostMove_dt s fun e => hreset (congrArg Move.host e)
    · rw [hdt]
    · omega

end Sys2Proof.Machine
end

section
/-!
PROOFS. The invariant (spec/10_state.md R24 to R26, spec/20_memory.md R51, R58, spec/41_control_flow.md R110): at any
configuration it holds at reset, and every step and every host move keep it.
-/

namespace Sys2Proof.Machine

variable {cfg : Params}

theorem State.resetAt_pcAddr (cfg : Params) : (State.resetAt cfg).pcAddr = cfg.progStart := by
  obtain ⟨-, -, hroom, hsize, -⟩ := cfg.consistent
  simp only [State.resetAt, State.pcAddr, BitVec.toNat_ofNat]
  omega

theorem inv_resetAt (cfg : Params) : Inv (State.resetAt cfg) where
  mem_wf := rfl
  low_mem _ _ := rfl
  pc_le := by
    obtain ⟨-, -, hroom, -⟩ := cfg.consistent
    rw [State.resetAt_pcAddr, maxPc]
    omega
  held _ hk := absurd hk (Nat.not_lt_zero _)
  top_slot _ _ := by simp [State.resetAt]
  latch := nofun

/-- Settles O15: memory lists nothing, nothing is held, and the program start is below the bound. -/
theorem resetMeetsInvariant : Obligations.ResetMeetsInvariant := ⟨inv_resetAt _, inv_resetAt⟩

/-! ## Host moves -/

theorem inv_hostMove {s : State cfg} (m : HostMove) (h : Inv s) : Inv (hostMove m s) := by
  cases m with
  | reset =>
    have hr := inv_resetAt cfg
    exact ⟨hr.mem_wf, hr.low_mem, hr.pc_le, hr.held, hr.top_slot, hr.latch⟩
  | load bs =>
    rw [hostMove_load]
    exact ⟨hostMove_load_wf h.mem_wf bs, fun a ha => (hostMove_load_get h.mem_wf bs ha).trans (h.low_mem a ha), h.pc_le,
      h.held, h.top_slot, h.latch⟩
  | keySet k b | dirtyClear => exact ⟨h.mem_wf, h.low_mem, h.pc_le, h.held, h.top_slot, h.latch⟩
  | timerDec t => cases t <;> exact ⟨h.mem_wf, h.low_mem, h.pc_le, h.held, h.top_slot, h.latch⟩

/-- Settles O17: a reset gives the reset state, a load writes from the program start up, the rest touch none of it. -/
theorem hostMoveKeepsInvariant : Obligations.HostMoveKeepsInvariant := fun _ m _ => inv_hostMove m

/-! ## Steps -/

/-- A fault's cause is what its record says of itself. -/
theorem FaultCause.justified {s : State cfg} {f : Fault} (h : FaultCause s f) : f.Justified cfg := by
  cases f with
  | memoryOutOfBounds a =>
    obtain ⟨hend, rfl⟩ | ⟨-, -, -, -, -, -, -, hbad, -⟩ := h
    · exact hend
    · exact hbad
  | stackOverflow | stackUnderflow => trivial
  | unimplementedOpcode w => exact h.2
  | misalignedPc p =>
    obtain ⟨rfl, hodd, hend⟩ := h
    obtain ⟨-, -, -, hsize, -⟩ := cfg.consistent
    obtain ⟨-, hpc⟩ := State.pcAddr_eq_pc (s := s) (by omega)
    exact ⟨by omega, by omega⟩
  | keyIndexOutOfRange b =>
    obtain ⟨-, -, -, hb⟩ := h
    exact hb

theorem inv_fault {s : State cfg} {f : Fault} (h : Inv s) (hf : f.Justified cfg) (r : Option StepResult) :
    Inv { s with fault := some f, lastResult := r } :=
  ⟨h.mem_wf, h.low_mem, h.pc_le, h.held, h.top_slot, fun _ hg => Option.some.inj hg ▸ hf⟩

/-- R24: the farthest are a skip from the last fetch address and the greatest sum of a jump with offset. -/
theorem nextPc_le_maxPc {s : State cfg} {i : Instr} (h : Inv s) (hend : s.pcAddr + 1 < cfg.memSize)
    (hret : i = .ret → s.sp.val ≠ 0) : nextPc s i ≤ maxPc cfg := by
  have hskip : s.pcAddr + 4 ≤ maxPc cfg := by unfold maxPc; omega
  cases i with
  | jp nnn | call nnn => have := nnn.isLt; simp only [nextPc, maxPc]; omega
  | jpV0 nnn => have := nnn.isLt; have := (s.readV 0).isLt; simp only [nextPc, maxPc]; omega
  | ret =>
    have := hret rfl
    have := h.held (spBelow s.sp) (by rw [spBelow_val]; omega)
    simp only [nextPc, maxPc]
    omega
  | seImm x kk | sneImm x kk | seReg x y | sneReg x y | skp x | sknp x | ldVxK x =>
    simp only [nextPc]
    split <;> omega
  | _ => simp only [nextPc]; omega

/-- A fetched instruction's address is one a call may push: even, below 2^16 and fetchable. -/
theorem State.pc_of_fetchInstr {s : State cfg} {i : Instr} (h : s.fetchInstr = .ok i) :
    s.pc.toNat = s.pcAddr ∧ s.pcAddr % 2 = 0 ∧ s.pcAddr + 1 < cfg.memSize := by
  obtain ⟨w, hw, -⟩ := State.fetchInstr_ok h
  obtain ⟨hend, heven, -⟩ := State.fetchWord_ok hw
  obtain ⟨-, -, -, hsize, -⟩ := cfg.consistent
  exact ⟨(State.pcAddr_eq_pc (by omega)).2.symm, heven, hend⟩

/-- The stack after an instruction that raises no fault: a call pushes its own address, and no other writes a slot or
raises the stack pointer. -/
theorem Completes.stack_cases {s t : State cfg} {i : Instr} (h : Completes i s t) :
    (t.sp.val = s.sp.val + 1 ∧ t.stack = s.stack.set s.sp s.pc) ∨ (t.sp.val ≤ s.sp.val ∧ t.stack = s.stack) := by
  cases i with
  | call nnn => exact .inl (h.pushed nnn rfl)
  | ret => exact .inr ⟨by have := h.popped rfl; omega, h.stack nofun⟩
  | _ => exact .inr ⟨by rw [h.sp nofun nofun], h.stack nofun⟩

theorem inv_completes {s t : State cfg} {i : Instr} (h : Inv s) (hfetch : s.fetchInstr = .ok i) (ht : Completes i s t)
    (hmem : t.mem = s.mem) : Inv t := by
  obtain ⟨hpc, heven, hend⟩ := State.pc_of_fetchInstr hfetch
  have hstack := ht.stack_cases
  refine ⟨hmem ▸ h.mem_wf, hmem ▸ h.low_mem, ?_, fun k hk => ?_, fun k hk => ?_, ht.latch ▸ h.latch⟩
  · rw [ht.pc]
    exact nextPc_le_maxPc h hend fun hi => by have := ht.popped hi; omega
  · obtain ⟨hsp, hst⟩ | ⟨hsp, hst⟩ := hstack
    · by_cases hks : s.sp.val = k.val
      · simp only [hst, Fin.getElem_fin, Vector.getElem_set, hks, if_true, hpc]
        omega
      · simp only [hst, Fin.getElem_fin, Vector.getElem_set, hks, if_false]
        exact h.held k (by omega)
    · rw [hst]; exact h.held k (by omega)
  · obtain ⟨hsp, hst⟩ | ⟨hsp, hst⟩ := hstack
    · have := t.sp.isLt
      simp only [hst, Fin.getElem_fin, Vector.getElem_set, show s.sp.val ≠ k.val by omega, if_false]
      exact h.top_slot k hk
    · rw [hst]; exact h.top_slot k hk

theorem inv_stepAt {s t : State cfg} (h : Inv s) (hstep : stepAt s = .next t) : Inv t := by
  by_cases hs : Running s
  · cases hfault : stepFault s with
    | some f =>
      cases (stepAt_of_fault hs hfault).symm.trans hstep
      exact inv_fault h (faultCause_iff.2 hfault).justified _
    | none =>
      obtain ⟨i, u, hfetch, hu, hcompletes⟩ := stepAt_completes hs hfault
      cases hu.symm.trans hstep
      exact inv_completes h hfetch hcompletes (stepAt_mem hstep)
  · obtain ⟨f, hf⟩ := Option.ne_none_iff_exists'.1 hs
    cases (stepWith_halted hf).symm.trans hstep
    exact ⟨h.mem_wf, h.low_mem, h.pc_le, h.held, h.top_slot, h.latch⟩

/-- Settles O16: a halted core changes its result alone, a fault is latched with its cause, and an instruction that
completes keeps memory, moves the program counter within bounds and pushes a fetchable address at most. -/
theorem stepKeepsInvariant : Obligations.StepKeepsInvariant :=
  fun s _ h hstep => inv_stepAt h ((stepAt_eq_step s).trans hstep)

/-! ## Runs -/

theorem inv_applyMove {m : Move} {s t : State cfg} (h : Inv s) (hmove : applyMove m s = .next t) : Inv t := by
  cases m with
  | core => exact inv_stepAt h hmove
  | host m => cases hmove; exact inv_hostMove m h

/-- Settles O18: the invariant holds at reset, and every move of a run keeps it. -/
theorem reachableStatesMeetInvariant : Obligations.ReachableStatesMeetInvariant :=
  fun _ ⟨_, hrun⟩ => runMoves_preserves (fun _ _ _ _ => inv_applyMove) (inv_resetAt _) hrun

end Sys2Proof.Machine
end

section
/-!
PROOFS. What no instruction reads (spec/10_state.md R26, R27, R30, R38; spec/40_step_cycle.md R99): two states that
differ in an unread field step in lockstep.
-/

namespace Sys2Proof.Machine

variable {cfg : Params}

/-! ## Lockstep -/

/-- Where the first outcome is a next state, so is the second, and the two are related. -/
def Lockstep (R : State cfg → State cfg → Prop) (o o' : Host.Outcome (State cfg) Fault Refusal) : Prop :=
  ∀ t, o = .next t → ∃ u, o' = .next u ∧ R t u

section

variable {R : State cfg → State cfg → Prop} {s s' : State cfg}

theorem lockstep_next {t u : State cfg} (h : R t u) : Lockstep R (.next t) (.next u) := by
  intro _ ht
  cases ht
  exact ⟨u, rfl, h⟩

/-- The two operands are read alike, and what is made of them is related, as are the two fault entries. -/
theorem lockstep_finishOr_map {α : Type} {r r' : Except Fault α} {f g : α → State cfg} (hr : r' = r)
    (hok : ∀ a, R { f a with lastResult := some .ok } { g a with lastResult := some .ok })
    (herr : ∀ e, R { s with fault := some e, lastResult := some (.err e) }
      { s' with fault := some e, lastResult := some (.err e) }) :
    Lockstep R (finishOr s (r.map f)) (finishOr s' (r'.map g)) := by
  subst hr
  cases r' with
  | ok a => exact lockstep_next (hok a)
  | error e => exact lockstep_next (herr e)

theorem lockstep_keyWait {x : RegIdx} (hkey : s'.firstKey = s.firstKey)
    (hok : ∀ b, R { (s.writeV x b).advance with lastResult := some .ok }
      { (s'.writeV x b).advance with lastResult := some .ok })
    (hwait : R { s with lastResult := some .waiting } { s' with lastResult := some .waiting }) :
    Lockstep R (execLdVxK x s) (execLdVxK x s') := by
  unfold execLdVxK
  rw [hkey]
  cases s.firstKey with
  | some k => exact lockstep_next (hok _)
  | none => exact lockstep_next hwait

theorem lockstep_stepAt (hfault : s'.fault = s.fault) (hfetch : s'.fetchInstr = s.fetchInstr)
    (hhalt : ∀ r, R { s with lastResult := r } { s' with lastResult := r })
    (herr : ∀ e, R { s with fault := some e, lastResult := some (.err e) }
      { s' with fault := some e, lastResult := some (.err e) })
    (hexec : ∀ i, s.fetchInstr = .ok i → Lockstep R (execAt i s) (execAt i s')) :
    Lockstep R (stepAt s) (stepAt s') := by
  unfold stepAt
  obtain ⟨f, hs, hstep⟩ | ⟨f, hs, hf, hstep⟩ | ⟨i, hs, hi, hstep⟩ := stepWith_cases execAt s
  · rw [hstep, stepWith_halted (hfault.trans hs)]
    exact lockstep_next (hhalt _)
  · rw [hstep, stepWith_fetchError (hfault.trans hs) (hfetch.trans hf)]
    exact lockstep_next (herr f)
  · rw [hstep, stepWith_running (hfault.trans hs) (hfetch.trans hi)]
    exact hexec i hi

end

theorem State.readSprite_congr (s s' : State cfg) (h : s'.mem = s.mem) (base : Word) (n r : Nat) :
    s'.readSprite base n r = s.readSprite base n r := by
  induction n generalizing r with
  | zero => rfl
  | succ n ih => simp only [State.readSprite, State.memRead, h, ih]

/-! ## The draw counter -/

/-- The second state is the first with the counter `d`. -/
def SameButDraws (d : Nat) (t u : State cfg) : Prop := u = { t with draws := d }

theorem execAt_lockstep_draws {i : Instr} (s : State cfg) (d : Nat) (hi : ∀ x kk, i ≠ .rnd x kk) :
    Lockstep (SameButDraws d) (execAt i s) (execAt i { s with draws := d }) := by
  cases i with
  | rnd x kk => exact absurd rfl (hi x kk)
  | ret =>
    simp only [execAt, execRet, State.pop]
    split_ifs <;> exact lockstep_next rfl
  | call nnn =>
    simp only [execAt, execCall, State.push]
    split_ifs <;> exact lockstep_next rfl
  | drw x y n =>
    exact lockstep_finishOr_map (State.readSprite_congr s { s with draws := d } rfl s.i n.toNat 0)
      (fun _ => rfl) fun _ => rfl
  | skp x | sknp x => exact lockstep_finishOr_map rfl (fun _ => rfl) fun _ => rfl
  | ldVxK x => exact lockstep_keyWait rfl (fun _ => rfl) rfl
  | _ => exact lockstep_next rfl

/-- Settles O46: only `RND` reads the counter or moves it. -/
theorem drawMattersOnlyToRnd : Obligations.DrawMattersOnlyToRnd := by
  intro s t d hrnd h
  have hstep : Lockstep (SameButDraws d) (stepAt s) (stepAt { s with draws := d }) :=
    lockstep_stepAt rfl rfl (fun _ => rfl) (fun _ => rfl)
      fun i hi => execAt_lockstep_draws s d fun x kk e => hrnd x kk (e ▸ hi)
  obtain ⟨u, hu, rfl⟩ := hstep t ((stepAt_eq_step s).trans h)
  exact (stepAt_eq_step _).symm.trans hu

/-! ## The sound timer, the dirty flag and the last result -/

/-- The two states differ in the sound timer and the dirty flag at most. -/
def SameButSoundDirty (t u : State cfg) : Prop := u = { t with st := u.st, dirty := u.dirty }

theorem execAt_lockstep_sound {i : Instr} (s : State cfg) (b : Byte) (d : Bool) (r : Option StepResult) :
    Lockstep SameButSoundDirty (execAt i s) (execAt i { s with st := b, dirty := d, lastResult := r }) := by
  cases i with
  | ret =>
    simp only [execAt, execRet, State.pop]
    split_ifs <;> exact lockstep_next rfl
  | call nnn =>
    simp only [execAt, execCall, State.push]
    split_ifs <;> exact lockstep_next rfl
  | drw x y n =>
    exact lockstep_finishOr_map
      (State.readSprite_congr s { s with st := b, dirty := d, lastResult := r } rfl s.i n.toNat 0)
      (fun _ => rfl) fun _ => rfl
  | skp x | sknp x => exact lockstep_finishOr_map rfl (fun _ => rfl) fun _ => rfl
  | ldVxK x => exact lockstep_keyWait rfl (fun _ => rfl) rfl
  | _ => exact lockstep_next rfl

/-- Settles O59: instructions write the sound timer and the dirty flag and read neither. -/
theorem soundTimerAndDirtyUnread : Obligations.SoundTimerAndDirtyUnread := by
  intro s t b d r h
  have hstep : Lockstep SameButSoundDirty (stepAt s) (stepAt { s with st := b, dirty := d, lastResult := r }) :=
    lockstep_stepAt rfl rfl (fun _ => rfl) (fun _ => rfl) fun i _ => execAt_lockstep_sound s b d r
  rw [← stepAt_eq_step]
  exact hstep t ((stepAt_eq_step s).trans h)

/-! ## The free stack slots -/

/-- The two states differ in the stack at most, and agree in the slots below the stack pointer. -/
def SameButFreeSlots (t u : State cfg) : Prop :=
  u = { t with stack := u.stack } ∧ ∀ k : Fin cfg.stackDepth, k.val < t.sp.val → u.stack[k] = t.stack[k]

theorem execAt_lockstep_slots {i : Instr} (s : State cfg) {slots : Vector Word cfg.stackDepth}
    (h : ∀ k : Fin cfg.stackDepth, k.val < s.sp.val → slots[k] = s.stack[k]) :
    Lockstep SameButFreeSlots (execAt i s) (execAt i { s with stack := slots }) := by
  cases i with
  | ret =>
    simp only [execAt, execRet, State.pop]
    split_ifs with hsp
    · exact lockstep_next ⟨rfl, h⟩
    · have hslot := h (spBelow s.sp) (by rw [spBelow_val]; omega)
      refine lockstep_next ⟨by simp only [hslot], fun k hk => h k ?_⟩
      have : k.val < s.sp.val - 1 := hk
      omega
  | call nnn =>
    simp only [execAt, execCall, State.push]
    split_ifs with hsp
    · refine lockstep_next ⟨rfl, fun k hk => ?_⟩
      have hk : k.val < s.sp.val + 1 := hk
      simp only [Fin.getElem_fin, State.jump, Vector.getElem_set]
      split_ifs with hks
      · rfl
      · exact h k (by omega)
    · exact lockstep_next ⟨rfl, h⟩
  | drw x y n =>
    exact lockstep_finishOr_map (State.readSprite_congr s { s with stack := slots } rfl s.i n.toNat 0)
      (fun _ => ⟨rfl, h⟩) fun _ => ⟨rfl, h⟩
  | skp x | sknp x => exact lockstep_finishOr_map rfl (fun _ => ⟨rfl, h⟩) fun _ => ⟨rfl, h⟩
  | ldVxK x => exact lockstep_keyWait rfl (fun _ => ⟨rfl, h⟩) ⟨rfl, h⟩
  | _ => exact lockstep_next ⟨rfl, h⟩

/-- Settles O60: a return reads the slot below the stack pointer, a call writes the one at it, and no other instruction
touches the stack. -/
theorem freeStackSlotsUnread : Obligations.FreeStackSlotsUnread := by
  intro s t slots hslots h
  have hstep : Lockstep SameButFreeSlots (stepAt s) (stepAt { s with stack := slots }) :=
    lockstep_stepAt rfl rfl (fun _ => ⟨rfl, hslots⟩) (fun _ => ⟨rfl, hslots⟩) fun i _ => execAt_lockstep_slots s hslots
  rw [← stepAt_eq_step]
  exact hstep t ((stepAt_eq_step s).trans h)

end Sys2Proof.Machine
end

section
/-!
PROOFS. The instructions one by one (spec/41_control_flow.md, spec/42_arith_logic.md, spec/43_index.md,
spec/45_timer_keypad.md): for each way an instruction ends, what the next state holds in full.
-/

namespace Sys2Proof.Machine

variable {cfg : Params}

/-- A state that differs in the registers, the program counter, the result and the draws at most. -/
theorem sameOutsideV_of_eq {s t : State cfg} (h : t = { s with
    v := t.v, pc := t.pc, pcHigh := t.pcHigh, lastResult := t.lastResult, draws := t.draws }) : SameOutsideV s t := by
  rw [h]
  exact ⟨rfl, ⟨rfl, fun _ => rfl⟩, ⟨rfl, rfl, fun _ => rfl⟩, ⟨fun _ _ => rfl, rfl⟩, fun _ => rfl, rfl⟩

theorem exec_of_fault {i : Instr} {s : State} {f : Fault} (h : instrFault s i = some f) :
    exec i s = .next { s with fault := some f, lastResult := some (.err f) } :=
  (execAt_eq_exec i s).symm.trans (execAt_of_fault h)

/-! ## The null action and the jumps -/

/-- Settles O30: an advance and nothing else. -/
theorem nullAction : Obligations.NullAction :=
  fun _ s => ⟨_, rfl, State.pcAddr_advance s, rfl, fun _ _ => rfl, sameOutsideV_of_eq rfl⟩

theorem finish_jump (s : State cfg) (w : Word) :
    ∃ t, finish .ok (s.jump w) = .next t ∧ t.pcAddr = w.toNat ∧ SameRegsBut [] s t ∧ SameOutsideV s t :=
  ⟨_, rfl, State.pcAddr_jump s w, fun _ _ => rfl, sameOutsideV_of_eq rfl⟩

/-- Settles O31: two jumps, whose targets' values are the operand and the unmasked sum. -/
theorem jumpsSetPc : Obligations.JumpsSetPc := fun nnn s =>
  ⟨addrOperand_toNat nnn ▸ finish_jump s (addrOperand nnn),
    offsetTarget_toNat nnn (s.readV 0) ▸ finish_jump s (offsetTarget nnn (s.readV 0))⟩

/-- Settles O38: the target is the program counter, so the jump changes nothing. -/
theorem parkedCoreStays : Obligations.ParkedCoreStays := by
  rintro s ⟨hs, nnn, hfetch, hself⟩
  have hnnn := nnn.isLt
  obtain ⟨hhigh, hpc⟩ := State.pcAddr_eq_pc (s := s) (by omega)
  have hjump : s.jump (addrOperand nnn) = s := by
    have htarget : addrOperand nnn = s.pc := BitVec.eq_of_toNat_eq (by rw [addrOperand_toNat]; omega)
    rw [State.jump, htarget, ← hhigh]
  refine ⟨?_, hs, nnn, hfetch, hself⟩
  rw [step_running hs hfetch, exec, execJp, hjump, finish_eq]

/-! ## Calls and returns -/

theorem execCall_of_room (nnn : Addr12) {s : State cfg} (h : s.sp.val + 1 < cfg.stackDepth) :
    execCall nnn s = .next { s with
      stack := s.stack.set s.sp s.pc, sp := ⟨s.sp.val + 1, h⟩, pc := addrOperand nnn, pcHigh := 0,
      lastResult := some .ok } :=
  finishOr_map_of_ok (State.push_ok h) _ s

theorem execRet_of_held {s : State cfg} {k : Fin cfg.stackDepth} (h : s.sp.val = k.val + 1) :
    execRet s = .next { s with sp := k, pc := s.stack[k], pcHigh := 0, lastResult := some .ok } := by
  obtain rfl : k = spBelow s.sp := Fin.ext (by rw [spBelow_val]; omega)
  rw [execRet, State.pop_ok (by omega)]
  rfl

/-- Settles O32: a push and a jump while there is room, the overflow fault where there is none. -/
theorem callPushesOwnAddress : Obligations.CallPushesOwnAddress := by
  refine fun nnn s => ⟨fun hsp => ?_, fun hsp => ?_⟩
  · have hroom : s.sp.val + 1 < Config.params.stackDepth := Nat.succ_lt_succ hsp
    refine ⟨_, execCall_of_room nnn hroom, ?_, rfl, ?_, fun k hk => ?_, fun _ _ => rfl, rfl, ⟨rfl, rfl, fun _ => rfl⟩,
      ⟨fun _ _ => rfl, rfl⟩, fun _ => rfl, rfl⟩
    · exact (State.pcAddr_jump s (addrOperand nnn)).trans (addrOperand_toNat nnn)
    · exact Vector.getElem_set_self _
    · exact Vector.getElem_set_ne s.sp.isLt k.isLt fun e => hk (Fin.ext e.symm)
  · exact exec_of_fault (instrFault_iff.2 (.inr (.inl ⟨nnn, rfl, rfl, hsp⟩)))

/-- Settles O33: the slot below the stack pointer, or the underflow fault. -/
theorem returnPopsIntoPc : Obligations.ReturnPopsIntoPc := by
  refine fun s => ⟨fun k hsp => ?_, fun hsp => ?_⟩
  · exact ⟨_, execRet_of_held hsp, State.pcAddr_jump s s.stack[k], rfl, fun _ => rfl, fun _ _ => rfl, rfl,
      ⟨rfl, rfl, fun _ => rfl⟩, ⟨fun _ _ => rfl, rfl⟩, fun _ => rfl, rfl⟩
  · exact exec_of_fault (instrFault_iff.2 (.inl ⟨rfl, rfl, hsp⟩))

theorem State.fetchWord_congr {s t : State cfg} (hpc : t.pc = s.pc) (hhigh : t.pcHigh = s.pcHigh)
    (hmem : t.mem = s.mem) : t.fetchWord = s.fetchWord := by
  have haddr : t.pcAddr = s.pcAddr := by rw [State.pcAddr, State.pcAddr, hpc, hhigh]
  rw [State.fetchWord_eq, State.fetchWord_eq, haddr, hpc, hmem]

/-- Settles O34: the call pushes its own address, and the return, fetched at its target, pops it again. -/
theorem callThenReturn : Obligations.CallThenReturn := by
  intro s nnn hs hfetch hsp hword
  have hroom : s.sp.val + 1 < Config.params.stackDepth := Nat.succ_lt_succ hsp
  obtain ⟨w, hw, -⟩ := State.fetchInstr_ok hfetch
  obtain ⟨hend, -⟩ := State.fetchWord_ok hw
  have hhigh : s.pcHigh = 0 := (State.pcAddr_eq_pc (s := s) (by rw [params_memSize] at hend; omega)).1
  have hret : State.fetchInstr { s with
      stack := s.stack.set s.sp s.pc, sp := ⟨s.sp.val + 1, hroom⟩, pc := addrOperand nnn, pcHigh := 0,
      lastResult := some .ok } = .ok .ret := by
    refine State.fetchInstr_of_decode ?_ (show decode 0x00EE = .ok .ret by decide)
    rw [← hword]
    exact State.fetchWord_congr rfl hhigh.symm rfl
  refine ⟨_, _, (step_running hs hfetch).trans (execCall_of_room nnn hroom),
    (step_running (by exact hs) hret).trans (execRet_of_held (k := s.sp) (by rfl)), ?_⟩
  simp [hhigh]

/-! ## Skips -/

theorem finish_skipWhen {P : Prop} [Decidable P] (s : State cfg) {c : Bool} (hc : c = true ↔ P) :
    ∃ t, finish .ok (s.skipWhen c) = .next t ∧ (if P then PcAdvances 4 s t else PcAdvances 2 s t) ∧
      SameRegsBut [] s t ∧ SameOutsideV s t := by
  refine ⟨_, rfl, ?_, fun _ _ => rfl, sameOutsideV_of_eq rfl⟩
  have hpc := State.pcAddr_skipWhen s c
  split_ifs with hP
  · rwa [if_pos (hc.2 hP)] at hpc
  · rwa [if_neg fun h => hP (hc.1 h)] at hpc

theorem finish_skipUnless {P : Prop} [Decidable P] (s : State cfg) {c : Bool} (hc : c = true ↔ ¬ P) :
    ∃ t, finish .ok (s.skipWhen c) = .next t ∧ (if P then PcAdvances 2 s t else PcAdvances 4 s t) ∧
      SameRegsBut [] s t ∧ SameOutsideV s t := by
  have h := finish_skipWhen s hc
  simp only [ite_not] at h
  exact h

/-- Settles O35: the two conditions are equality with the immediate and its negation. -/
theorem immediateSkips : Obligations.ImmediateSkips := fun _ _ s =>
  ⟨finish_skipWhen s (by rw [beq_iff_eq, BitVec.toNat_inj]),
    finish_skipUnless s (by rw [bne_iff_ne, Ne, BitVec.toNat_inj])⟩

/-- Settles O36: as `immediateSkips`, between two registers. -/
theorem registerSkips : Obligations.RegisterSkips := fun _ _ s =>
  ⟨finish_skipWhen s (by rw [beq_iff_eq, BitVec.toNat_inj]),
    finish_skipUnless s (by rw [bne_iff_ne, Ne, BitVec.toNat_inj])⟩

/-- Settles O54: a register up to 15 selects a key, whose flag is the condition; above it selects none and faults. -/
theorem keySkips : Obligations.KeySkips := by
  refine fun x s => ⟨fun k hk => ?_, fun hx => ?_⟩
  · have hkey : keyOperand (s.readV x) = .ok k := by
      rw [keyOperand_ok (by omega)]
      exact congrArg _ (Fin.ext hk)
    have hskp : exec (.skp x) s = finish .ok (s.skipWhen (s.keyDown k)) := finishOr_map_of_ok hkey _ s
    have hsknp : exec (.sknp x) s = finish .ok (s.skipWhen (!s.keyDown k)) := finishOr_map_of_ok hkey _ s
    rw [hskp, hsknp]
    exact ⟨finish_skipWhen s Iff.rfl, finish_skipUnless s (by rw [Bool.not_eq_true', Bool.not_eq_true])⟩
  · have hraise (i : Instr) (hi : i = .skp x ∨ i = .sknp x) : instrFault s i = some (.keyIndexOutOfRange (s.readV x)) :=
      instrFault_iff.2 (.inr (.inr (.inr ⟨x, hi, rfl, hx⟩)))
    exact ⟨exec_of_fault (hraise _ (.inl rfl)), exec_of_fault (hraise _ (.inr rfl))⟩

/-! ## Register results -/

/-- Settles O41: one register write each, read bit by bit. -/
theorem moveAndBitwise : Obligations.MoveAndBitwise := by
  intro x y s
  obtain ⟨t1, hexec1, hx1, hframe1⟩ := finish_writeV_advance s x (s.readV x ||| s.readV y)
  obtain ⟨t2, hexec2, hx2, hframe2⟩ := finish_writeV_advance s x (s.readV x &&& s.readV y)
  obtain ⟨t3, hexec3, hx3, hframe3⟩ := finish_writeV_advance s x (s.readV x ^^^ s.readV y)
  exact ⟨finish_writeV_advance s x (s.readV y),
    ⟨t1, hexec1, fun b => hx1 ▸ BitVec.getLsbD_or, hframe1⟩,
    ⟨t2, hexec2, fun b => hx2 ▸ BitVec.getLsbD_and, hframe2⟩,
    ⟨t3, hexec3, fun b => hx3 ▸ BitVec.getLsbD_xor, hframe3⟩⟩

/-- What an instruction does that writes a result, then the flag, and advances: VF holds the flag, another destination
the result, and everything else is the same (R143). -/
theorem finish_writeResultFlag_advance (s : State cfg) (x : RegIdx) (b : Byte) (f : Bool) :
    ∃ t, finish .ok (s.writeResultFlag x b f).advance = .next t ∧ t.readV flagReg = flagByte f ∧
      (x ≠ flagReg → t.readV x = b) ∧ SameRegsBut [x, flagReg] s t ∧ PcAdvances 2 s t ∧ SameOutsideV s t := by
  refine ⟨_, rfl, State.readV_writeFlag_flag _ f, fun hx => ?_, State.writeResultFlag_regs s x b f,
    State.pcAddr_advance (s.writeResultFlag x b f), sameOutsideV_of_eq rfl⟩
  exact (State.readV_writeResultFlag s x x b f).trans (by rw [if_neg hx, if_pos rfl])

/-- The same in numbers. -/
theorem finish_resultFlag (s : State cfg) (x : RegIdx) {b : Byte} {f : Bool} {flag res : Nat}
    (hf : (flagByte f).toNat = flag) (hb : b.toNat = res) :
    ∃ t, finish .ok (s.writeResultFlag x b f).advance = .next t ∧ (t.readV flagReg).toNat = flag ∧
      (x ≠ flagReg → (t.readV x).toNat = res) ∧ SameRegsBut [x, flagReg] s t ∧ PcAdvances 2 s t ∧ SameOutsideV s t := by
  obtain ⟨t, hexec, hflag, hx, hframe⟩ := finish_writeResultFlag_advance s x b f
  exact ⟨t, hexec, hflag ▸ hf, fun hne => hx hne ▸ hb, hframe⟩

/-- Settles O42: the sum and the carry, the flag last. -/
theorem addSetsCarry : Obligations.AddSetsCarry := fun x _ s =>
  finish_resultFlag s x (by simp [flagByte_toNat, carry]) (addWrap_toNat _ _)

theorem subWrap_toNat_mod (a b : Byte) : (subWrap a b).toNat = (a.toNat + 256 - b.toNat) % 256 := by
  have := a.isLt
  have := b.isLt
  rw [subWrap_toNat]
  split_ifs <;> omega

/-- Settles O43: the difference and the no-borrow flag, with the operands in either order. -/
theorem subtractsSetNoBorrow : Obligations.SubtractsSetNoBorrow := fun x _ s =>
  ⟨finish_resultFlag s x (by simp [flagByte_toNat, noBorrow]) (subWrap_toNat_mod _ _),
    finish_resultFlag s x (by simp [flagByte_toNat, noBorrow]) (subWrap_toNat_mod _ _)⟩

/-- Settles O44: the bit shifted out is the parity on the right and the upper half on the left. -/
theorem shiftsByOne : Obligations.ShiftsByOne := by
  intro x y s
  have hbyte := (s.readV x).isLt
  have hright : (flagByte (bitOutRight (s.readV x))).toNat = (s.readV x).toNat % 2 := by
    simp only [flagByte_toNat, bitOutRight_eq, decide_eq_true_eq]
    split_ifs <;> omega
  have hleft : (flagByte (bitOutLeft (s.readV x))).toNat = (s.readV x).toNat / 128 := by
    simp only [flagByte_toNat, bitOutLeft_eq, decide_eq_true_eq]
    split_ifs <;> omega
  exact ⟨finish_resultFlag s x hright (shiftRight1_toNat _), finish_resultFlag s x hleft (shiftLeft1_toNat _)⟩

/-- Settles O45: a register write on the state with the draw counted. -/
theorem randomIsMasked : Obligations.RandomIsMasked := fun x kk s =>
  ⟨_, rfl, fun b => (congrArg (BitVec.getLsbD · b) (State.readV_writeV_self s.draw.2 x (s.draw.1 &&& kk))).trans
    BitVec.getLsbD_and, rfl, State.writeV_regs s.draw.2 x (s.draw.1 &&& kk), State.pcAddr_advance _,
    sameOutsideV_of_eq rfl⟩

/-- Settles O48: a write of `I` with the sum, which keeps 16 bits. -/
theorem addToIndex : Obligations.AddToIndex := by
  intro x s
  obtain ⟨t, hexec, hi, hframe⟩ := finish_writeI_advance s (indexSum s.i (s.readV x))
  exact ⟨t, hexec, hi ▸ indexSum_toNat s.i (s.readV x), hframe⟩

/-! ## Timers and the key wait -/

/-- Settles O56: one register write, and two writes of a timer each. -/
theorem timerInstructions : Obligations.TimerInstructions := fun x s =>
  ⟨finish_writeV_advance s x s.dt,
    ⟨_, rfl, rfl, rfl, fun _ _ => rfl, State.pcAddr_advance _, rfl, ⟨rfl, fun _ => rfl⟩, fun _ => rfl,
      ⟨fun _ _ => rfl, rfl⟩, fun _ => rfl, rfl⟩,
    ⟨_, rfl, rfl, rfl, fun _ _ => rfl, State.pcAddr_advance _, rfl, ⟨rfl, fun _ => rfl⟩, fun _ => rfl,
      ⟨fun _ _ => rfl, rfl⟩, fun _ => rfl, rfl⟩⟩

/-- Settles O55: the key scan finds the smallest pressed key, or none. -/
theorem keyWaitPolls : Obligations.KeyWaitPolls := by
  refine fun x s => ⟨fun k hk hlow => ?_, fun hnone => ?_⟩
  · have hexec : exec (.ldVxK x) s = finish .ok (s.writeV x (BitVec.ofNat 8 k.val)).advance := by
      rw [exec, execLdVxK, State.firstKey_eq_some.2 ⟨hk, hlow⟩]
    have hval : (BitVec.ofNat 8 k.val).toNat = k.val := by rw [BitVec.toNat_ofNat]; omega
    refine ⟨_, hexec, ?_, State.writeV_regs s x _, State.pcAddr_advance (s.writeV x _), sameOutsideV_of_eq rfl, rfl⟩
    exact (congrArg BitVec.toNat (State.readV_writeV_self s x _)).trans hval
  · rw [exec, execLdVxK, State.firstKey_eq_none.2 hnone, finish_eq]

end Sys2Proof.Machine
end

section
/-!
PROOFS. The display (spec/44_display.md R160 to R166): what a draw does to every pixel, to VF and to the dirty flag, in
the terms of the sprite's bytes in memory, at any configuration; clearing the screen, and reading the display out.
-/

namespace Sys2Proof.Machine

variable {cfg : Params}

/-- Settles O49: a blank display, the flag, and an advance. -/
theorem clearScreen : Obligations.ClearScreen := fun _ =>
  ⟨_, rfl, fun r c => Display.pixel_blank (cfg := Config.params) r c, rfl, fun _ _ => rfl, State.pcAddr_advance _, rfl,
    ⟨rfl, fun _ => rfl⟩, ⟨rfl, rfl, fun _ => rfl⟩, fun _ => rfl, rfl⟩

/-! ## Reading the display -/

theorem State.readDisplay_eq_flatten (s : State cfg) : s.readDisplay.1 = s.disp.flatten.toList := by
  simp [State.readDisplay, Vector.flatten, Array.toList_flatten, Vector.toList, Function.comp_def]

theorem Display.flatten_getElem? (d : Display cfg) (r : Fin cfg.dispH) (c : Fin cfg.dispW) :
    d.flatten.toList[r.val * cfg.dispW + c.val]? = some (Display.pixel d r c) := by
  have hi : r.val * cfg.dispW + c.val < cfg.dispH * cfg.dispW :=
    calc r.val * cfg.dispW + c.val < (r.val + 1) * cfg.dispW := by rw [Nat.succ_mul]; omega
      _ ≤ cfg.dispH * cfg.dispW := Nat.mul_le_mul_right _ r.isLt
  have hrow : (r.val * cfg.dispW + c.val) / cfg.dispW = r.val := by
    rw [Nat.mul_comm, Nat.mul_add_div (by omega), Nat.div_eq_of_lt c.isLt, Nat.add_zero]
  have hcol : (r.val * cfg.dispW + c.val) % cfg.dispW = c.val := by
    rw [Nat.mul_comm, Nat.mul_add_mod, Nat.mod_eq_of_lt c.isLt]
  have hpixel := Vector.getElem_flatten (xss := d) hi
  simp only [hrow, hcol] at hpixel
  rw [Vector.getElem?_toList, Vector.getElem?_eq_getElem hi, hpixel]
  rfl

/-- Settles O53: what the host reads is the display flattened. -/
theorem readDisplayIsRowMajor : Obligations.ReadDisplayIsRowMajor := by
  intro s r c
  rw [State.readDisplay_eq_flatten]
  exact ⟨Display.flatten_getElem? s.disp r c, Vector.length_toList, rfl⟩

/-! ## The pixels a draw covers -/

/-- The bytes of the sprite at `I` (R161). -/
def spriteBytes (s : State cfg) (n : Nat) : List Byte :=
  (List.range' 0 n).map fun r => Memory.get cfg s.mem (rowAddr s.i r)

theorem covers_spriteBytes {s : State cfg} {x y : RegIdx} {n : Nibble} {r : Fin cfg.dispH} {c : Fin cfg.dispW} :
    Covers (s.readV x).toNat (s.readV y).toNat (spriteBytes s n.toNat) (r, c) ↔ SpriteCovers s x y n r c := by
  unfold Covers
  rw [mem_spritePlaces]
  simp [spriteBytes, SpriteCovers, spriteBit, rowAddr, wrapRow, wrapCol, Fin.ext_iff]

/-- What a draw makes of the display: covered pixels inverted and no others, a collision where a covered pixel was set,
a change where some pixel is covered. -/
structure DrawsSprite (s : State cfg) (x y : RegIdx) (n : Nibble) (k : Canvas cfg) : Prop where
  covered : ∀ r c, SpriteCovers s x y n r c → Display.pixel k.disp r c = !Display.pixel s.disp r c
  uncovered : ∀ r c, ¬ SpriteCovers s x y n r c → Display.pixel k.disp r c = Display.pixel s.disp r c
  collision : k.collision = true ↔ ∃ r c, SpriteCovers s x y n r c ∧ Display.pixel s.disp r c = true
  changed : k.changed = true ↔ ∃ r c, SpriteCovers s x y n r c

theorem drawsSprite_drawSprite (s : State cfg) (x y : RegIdx) (n : Nibble) :
    DrawsSprite s x y n (drawSprite (s.readV x) (s.readV y) (spriteBytes s n.toNat) s.disp) := by
  have hlen : (spriteBytes s n.toNat).length ≤ cfg.dispH := by
    have := n.isLt
    obtain ⟨-, -, -, -, -, hrows, -⟩ := cfg.consistent
    simp only [spriteBytes, List.length_map, List.length_range']
    omega
  obtain ⟨hcov, huncov, hcoll, hchanged⟩ := drawSprite_spec (s.readV x) (s.readV y) s.disp hlen
  refine ⟨fun r c h => hcov (r, c) (covers_spriteBytes.2 h),
    fun r c h => huncov (r, c) fun h' => h (covers_spriteBytes.1 h'), ?_, ?_⟩
  · rw [hcoll, Prod.exists]; simp only [covers_spriteBytes]
  · rw [hchanged, Prod.exists]; simp only [covers_spriteBytes]

section

variable {s : State cfg} {x y : RegIdx} {n : Nibble} {k : Canvas cfg}

theorem DrawsSprite.pixel_ne_iff (h : DrawsSprite s x y n k) {r : Fin cfg.dispH} {c : Fin cfg.dispW} :
    Display.pixel k.disp r c ≠ Display.pixel s.disp r c ↔ SpriteCovers s x y n r c := by
  by_cases hc : SpriteCovers s x y n r c
  · simp [h.covered r c hc, hc]
  · simp [h.uncovered r c hc, hc]

theorem DrawsSprite.changed_iff (h : DrawsSprite s x y n k) :
    k.changed = true ↔ ∃ r c, Display.pixel k.disp r c ≠ Display.pixel s.disp r c := by
  simp only [h.changed, h.pixel_ne_iff]

/-- A collision is a pixel that went from set to unset (R164). -/
theorem DrawsSprite.collision_iff (h : DrawsSprite s x y n k) : k.collision = true ↔
    ∃ r c, Display.pixel s.disp r c = true ∧ Display.pixel k.disp r c = false := by
  rw [h.collision]
  refine exists₂_congr fun r c => ?_
  rw [← h.pixel_ne_iff]
  cases Display.pixel s.disp r c <;> cases Display.pixel k.disp r c <;> decide

end

/-! ## The draw instruction -/

theorem execDrw_of_rows {x y : RegIdx} {n : Nibble} {s : State cfg}
    (h : ∀ r : Nat, r < n.toNat → s.i.toNat + r < cfg.memSize) :
    ∃ k, DrawsSprite s x y n k ∧ execDrw x y n s = finish .ok (s.putCanvas k).advance := by
  have hsprite : s.readSprite s.i n.toNat 0 = .ok (spriteBytes s n.toNat) :=
    State.readSprite_ok fun j _ hj => h j (by omega)
  exact ⟨_, drawsSprite_drawSprite s x y n, finishOr_map_of_ok hsprite _ s⟩

/-- Settles O50: every row read exists, and the canvas says what the draw changed. -/
theorem drawInvertsSprite : Obligations.DrawInvertsSprite := by
  intro x y n s hrows
  obtain ⟨k, hk, hexec⟩ := execDrw_of_rows (x := x) (y := y) (n := n) (s := s) fun r hr => by
    obtain rfl | hrows := hrows
    · cases hr
    · rw [params_memSize]; omega
  have hdirty : (s.dirty || k.changed) = true ↔
      s.dirty = true ∨ ∃ r c, Display.pixel k.disp r c ≠ Display.pixel s.disp r c := by
    rw [Bool.or_eq_true, hk.changed_iff]
  have hflag : (s.putCanvas k).readV flagReg = flagByte k.collision := State.readV_writeFlag_flag _ _
  refine ⟨_, hexec, fun r c => ⟨hk.covered r c, hk.uncovered r c⟩, fun hset => ?_, fun hnone => ?_, hdirty,
    State.putCanvas_regs s k, State.pcAddr_advance _, rfl, ⟨rfl, fun _ => rfl⟩, ⟨rfl, rfl, fun _ => rfl⟩, fun _ => rfl,
    rfl⟩
  · exact hflag.trans (congrArg flagByte (hk.collision_iff.2 hset))
  · exact hflag.trans (congrArg flagByte (Bool.eq_false_iff.2 fun h => hnone (hk.collision_iff.1 h)))

/-- Settles O51: the draw's own fault, whose row is the lowest outside memory. -/
theorem drawPastMemoryFaults : Obligations.DrawPastMemoryFaults := fun x y n _ r hr hbad hlow =>
  exec_of_fault (instrFault_iff.2 (.inr (.inr (.inl ⟨x, y, n, r, rfl, hr, rfl, hbad, hlow⟩))))

/-- A draw that raises no fault found every row of its sprite in memory. -/
theorem rows_of_execDrw {x y : RegIdx} {n : Nibble} {s t : State cfg} (h : execDrw x y n s = .next t) (ht : Running t) :
    ∀ r : Nat, r < n.toNat → s.i.toNat + r < cfg.memSize := by
  by_contra hrows
  obtain ⟨r, hr, hbad, hlow⟩ := exists_lowest_bad_row hrows
  have hfault : instrFault s (.drw x y n) = some (.memoryOutOfBounds (s.i.toNat + r)) :=
    instrFault_iff.2 (.inr (.inr (.inl ⟨x, y, n, r, rfl, hr, rfl, hbad, hlow⟩)))
  cases (execAt_of_fault hfault).symm.trans h
  cases ht

theorem Display.ext_pixel {d e : Display cfg} (h : ∀ r c, Display.pixel d r c = Display.pixel e r c) : d = e :=
  Vector.ext fun r hr => Vector.ext fun c hc => h ⟨r, hr⟩ ⟨c, hc⟩

theorem flagByte_eq_one {b : Bool} : flagByte b = 1 ↔ b = true := by cases b <;> decide

/-- The pixels a sprite covers depend on its place, its address and memory alone. -/
theorem spriteCovers_congr {s t : State cfg} {x y : RegIdx} {n : Nibble} (hx : t.readV x = s.readV x)
    (hy : t.readV y = s.readV y) (hi : t.i = s.i) (hmem : t.mem = s.mem) {r : Fin cfg.dispH} {c : Fin cfg.dispW} :
    SpriteCovers t x y n r c ↔ SpriteCovers s x y n r c := by
  simp only [SpriteCovers, hx, hy, hi, hmem]

section

variable {s t : State cfg} {x y : RegIdx} {n : Nibble} {k k' : Canvas cfg}

/-- Two inversions of the same pixels restore them. -/
theorem DrawsSprite.twice_disp (hk : DrawsSprite s x y n k) (hk' : DrawsSprite t x y n k') (hdisp : t.disp = k.disp)
    (hcov : ∀ r c, SpriteCovers t x y n r c ↔ SpriteCovers s x y n r c) : k'.disp = s.disp := by
  refine Display.ext_pixel fun r c => ?_
  by_cases h : SpriteCovers s x y n r c
  · rw [hk'.covered r c ((hcov r c).2 h), hdisp, hk.covered r c h, Bool.not_not]
  · rw [hk'.uncovered r c fun h' => h ((hcov r c).1 h'), hdisp, hk.uncovered r c h]

/-- Where the first draw found only unset pixels, the second finds every covered one set. -/
theorem DrawsSprite.twice_collision (hk : DrawsSprite s x y n k) (hk' : DrawsSprite t x y n k')
    (hdisp : t.disp = k.disp) (hcov : ∀ r c, SpriteCovers t x y n r c ↔ SpriteCovers s x y n r c)
    (hunset : ∀ r c, SpriteCovers s x y n r c → Display.pixel s.disp r c = false) :
    k'.collision = true ↔ ∃ r c, SpriteCovers s x y n r c := by
  rw [hk'.collision]
  refine exists₂_congr fun r c => ?_
  rw [hcov, hdisp]
  exact and_iff_left_of_imp fun h => by rw [hk.covered r c h, hunset r c h]; rfl

end

/-- Settles O52: the second draw covers the same pixels, for the first moves neither the sprite nor its place. -/
theorem drawTwiceRestores : Obligations.DrawTwiceRestores := by
  intro x y n s t u hx hy _ ht htrun hu
  have hrows := rows_of_execDrw ht htrun
  obtain ⟨k, hk, hexec⟩ := execDrw_of_rows (x := x) (y := y) hrows
  obtain rfl := finish_eq_next.1 (hexec.symm.trans ht)
  obtain ⟨k', hk', hexec'⟩ := execDrw_of_rows (x := x) (y := y)
    (s := { (s.putCanvas k).advance with lastResult := some .ok }) hrows
  obtain rfl := finish_eq_next.1 (hexec'.symm.trans hu)
  have hv (r : RegIdx) (hr : r ≠ flagReg) : (s.putCanvas k).readV r = s.readV r :=
    State.putCanvas_regs s k r (by simpa using hr)
  have hcov (r : Fin 32) (c : Fin 64) := spriteCovers_congr (n := n) (r := r) (c := c) (hv x hx) (hv y hy) rfl rfl
  refine ⟨hk.twice_disp hk' rfl hcov, fun hunset => ?_⟩
  rw [← hk.twice_collision hk' rfl hcov hunset, ← flagByte_eq_one]
  exact Iff.of_eq (congrArg (· = 1) (State.readV_writeFlag_flag _ k'.collision))

end Sys2Proof.Machine
end
